-- ==== Sys2Proof/Word.lean ====
section
/-! DEFINITION. The words of the frame codec: bytes, host op words, register numbers (00_scope.md R11, R12). -/

namespace Sys2Proof

/-- R12: an unsigned integer 0 to 255; one line byte, one data register, `rdata`. -/
abbrev Byte := BitVec 8

/-- R11, R96: a host op is one 16-bit word. -/
abbrev OpWord := BitVec 16

/-- R43: the register number space is the 4-bit field `a`. -/
abbrev RegNo := BitVec 4

/-- R11: the position counters `tx_idx` and `rx_cnt` are 9 bits. -/
abbrev Position := BitVec 9

end Sys2Proof
end

