-- ==== Sys2Proof/Config.lean ====
section
/-! DEFINITION. What is fixed before reset and never changed by a step (10_state.md R47): the constants of
00_scope.md R6 and the open parameters of R7 to R10. -/

namespace Sys2Proof

/-- R6: least length of a valid response frame. -/
def minFrame : Nat := 5
/-- R6: bytes before the parameters or the payload. -/
def hdrLen : Nat := 4
/-- R6: most parameter bytes in one command frame; also the depth of TXP (R61). -/
def txPMax : Nat := 255
/-- R6: the longest frame the layout can express. -/
def maxFrame : Nat := 260
/-- R6, R192: bytes per discovery record. -/
def discStride : Nat := 10
/-- R6: bytes of the long address. -/
def longLen : Nat := 8
/-- R6: bytes of the short address. -/
def shortLen : Nat := 2

/-- The parameters the document names and does not value (R7 to R10). R116: nothing is assumed of
`ckInit`, `ckStep`, `ckFinal`. -/
structure Config where
  /-- R7: SYNC_BYTE. -/
  syncByte    : Byte
  /-- R8: VERSION_BYTE. -/
  versionByte : Byte
  /-- R9: CK_INIT. -/
  ckInit      : Byte
  /-- R9: CK_STEP. -/
  ckStep      : Byte → Byte → Byte
  /-- R9: CK_FINAL. -/
  ckFinal     : Byte → Byte
  /-- R10: RX_MAX less 5, so that 5 <= RX_MAX <= 260 holds by construction. -/
  rxSlack     : Fin 256
  /-- R7: CMD_DISCOVER; FC never reads it (R199). -/
  cmdDiscover : Byte
  deriving Inhabited

/-- R10: the length in bytes of RXB. -/
def Config.rxMax (cfg : Config) : Nat := cfg.rxSlack.val + 5

/-- The configuration of the device: open (R7 to R10), so it has no body and every claim holds whatever
it is (log 10). -/
opaque Config.device : Config

end Sys2Proof
end

