-- ==== Sys2Proof/Machine/LevelF.lean ====
section
/-! DEFINITION. Level F (00_scope.md R2): the document's own pure functions over finite byte sequences. -/

namespace Sys2Proof.LevelF

/-- R13: `s[i..j)`, the subsequence of indices `i` up to but not including `j`. -/
def slice (s : List Byte) (i j : Nat) : List Byte := (s.take j).drop i

/-- R115: the fold inside `CK`, before CK_FINAL. -/
def ckFold (cfg : Config) (bs : List Byte) : Byte := bs.foldl cfg.ckStep cfg.ckInit

/-- R115: `CK(bs) = CK_FINAL(foldl CK_STEP CK_INIT bs)`. -/
def ck (cfg : Config) (bs : List Byte) : Byte := cfg.ckFinal (ckFold cfg bs)

/-- R89, R117: the checksum region `F[1..|F|-1)`. -/
def region (f : List Byte) : List Byte := slice f 1 (f.length - 1)

/-- The frame of R86 and R130, for a parameter list of any length; `encode` below is R130's function. -/
def commandFrame (cfg : Config) (c : Byte) (p : List Byte) : List Byte :=
  let body := [cfg.versionByte, c, BitVec.ofNat 8 p.length] ++ p
  [cfg.syncByte] ++ body ++ [ck cfg body]

/-- R130 `Encode`. R132: more than 255 parameters have no value; nothing is truncated or wrapped. -/
def encode (cfg : Config) (c : Byte) (p : List Byte) : Option (List Byte) :=
  if p.length ≤ txPMax then some (commandFrame cfg c p) else none

/-- The one failure of R155. -/
inductive DecodeFailure where
  /-- R155, R226: fewer than 5 bytes. -/
  | malformedFrame
  deriving DecidableEq, Repr

/-- R155 `Decode`: the command code `B[2]` and the payload `B[4..n-1)`. R156: nothing but the length is
checked. -/
def decode (b : List Byte) : Except DecodeFailure (Byte × List Byte) :=
  if h : b.length < minFrame then .error .malformedFrame
  else .ok (b[2]'(by unfold minFrame at h; omega), slice b hdrLen (b.length - 1))

/-- R167: the logical message is `[command-code] ++ payload`. -/
def logicalMessage (m : Byte × List Byte) : List Byte := m.1 :: m.2

/-- R123, R157 `ChecksumOk`: for `n >= 5`, `CK(B[1..n-1)) = B[n-1]`; false below 5 bytes. -/
def checksumOk (cfg : Config) (b : List Byte) : Bool :=
  decide (minFrame ≤ b.length) && (b.getLast? == some (ck cfg (region b)))

/-- R158 `LengthOk`: for `n >= 5`, `B[3] = n - 5`; false below 5 bytes. -/
def lengthOk (b : List Byte) : Bool :=
  decide (minFrame ≤ b.length) && (b[3]?.map BitVec.toNat == some (b.length - minFrame))

/-- R94: one discovery record; both fields are in wire order. -/
structure DiscRecord where
  long  : List Byte
  short : List Byte
  deriving DecidableEq, Repr

/-- R190: record `r` of a payload, `long(r) = P[10r..10r+8)` and `short(r) = P[10r+8..10r+10)`. -/
def discoveryRecord (p : List Byte) (r : Nat) : DiscRecord :=
  { long  := slice p (discStride * r) (discStride * r + longLen)
    short := slice p (discStride * r + longLen) (discStride * r + longLen + shortLen) }

/-- R190 `DecodeDiscovery`: `|P| div 10` records in wire order; a partial record is never emitted. -/
def decodeDiscovery (p : List Byte) : List DiscRecord :=
  (List.range (p.length / discStride)).map (discoveryRecord p)

/-- R193 `ShortNumeric([s0, s1]) = s1 * 256 + s0`, a 16-bit value. -/
def shortNumeric (s0 s1 : Byte) : BitVec 16 := BitVec.ofNat 16 (s1.toNat * 256 + s0.toNat)

end Sys2Proof.LevelF
end

