-- ==== Sys2Proof/Syntax.lean ====
section
/-! DEFINITION. The steps FC takes, one constructor per row of spec/opcode_table.json, and the stimuli
that present them. -/

namespace Sys2Proof

/-- One constructor per row of the opcode table, in the table's order. -/
inductive Instr where
  /-- R210 -/
  | nop
  /-- R134 -/
  | txclr
  /-- R135 -/
  | txcmd (d : Byte)
  /-- R136 -/
  | txpush (d : Byte)
  /-- R137 -/
  | txgo
  /-- R160 -/
  | rxarm
  /-- R162 -/
  | rxend
  /-- R164 -/
  | rdcmd
  /-- R165 -/
  | rdplen
  /-- R166 -/
  | rdpay (d : Byte)
  /-- R195 -/
  | recsel (d : Byte)
  /-- R196 -/
  | rdrec (d : Byte)
  /-- R197 -/
  | rdnrec
  /-- R211 -/
  | wrreg (a : RegNo) (d : Byte)
  /-- R212 -/
  | rdreg (a : RegNo)
  /-- R213 -/
  | srst
  /-- R138: SER sends the next byte. -/
  | emit
  /-- R161: LINE delivers one byte. -/
  | rxbyte (b : Byte)
  /-- R260: the environment's reset event. -/
  | reset
  /-- R86: a whole command frame, from its command code and parameters (log 4). -/
  | cmdFrame (c : Byte) (params : List Byte)
  /-- R90: a whole response frame on the line (log 5). -/
  | rspFrame (sync version command len : Byte) (payload : List Byte) (checksum : Byte)
  /-- R94: one discovery record on the line: long address, then s0, s1 (log 6). -/
  | discRecord (longAddr : List Byte) (s0 s1 : Byte)
  deriving DecidableEq, Repr

/-- What the agents of R5 present to FC, undecoded: the entries of `State.schedule` (log 1). -/
inductive Stimulus where
  /-- HOST puts a 16-bit word on the op port (R96). -/
  | host (w : OpWord)
  /-- SER takes its turn: `EMIT`, which has no encoding (R101). -/
  | ser
  /-- LINE delivers a byte: `RXBYTE b` (R101). -/
  | line (b : Byte)
  /-- The environment applies reset (R260). -/
  | env
  /-- The bytes of a command frame that HOST and SER are to produce (R86). -/
  | commandFrame (bytes : List Byte)
  /-- The bytes of a response frame that LINE delivers (R90). -/
  | responseFrame (bytes : List Byte)
  /-- The bytes of a discovery record that LINE delivers (R94). -/
  | discoveryRecord (bytes : List Byte)
  deriving DecidableEq, Repr

end Sys2Proof
end

