-- ==== Sys2Proof/Machine/State.lean ====
section
/-! DEFINITION. The state of FC (10_state.md R20) as plain data, why a step can stop, and the state after
reset (R51, 70_reset_and_hazards.md R261). -/

namespace Sys2Proof.Machine

/-- The cells of TXP or RXB that hold a value, addresses strictly rising; a cell that is not listed holds
no value (R61, R62: contents after reset unspecified; log 7). -/
abbrev Memory := List Host.Cell

/-- R25. -/
inductive TxState where
  /-- T_IDLE = 0. -/
  | idle
  /-- T_BUSY = 1. -/
  | busy
  deriving DecidableEq, Repr

/-- R29. -/
inductive RxState where
  /-- R_IDLE = 0: no window since reset. -/
  | idle
  /-- R_RECV = 1: a window is open. -/
  | recv
  /-- R_DONE = 2: the window has closed. -/
  | done
  deriving DecidableEq, Repr

/-- R33. -/
inductive RxRes where
  /-- NONE = 0. -/
  | none
  /-- OK = 1. -/
  | ok
  /-- MALFORMED = 2. -/
  | malformed
  deriving DecidableEq, Repr

/-- R34. -/
inductive RxCause where
  /-- NONE = 0. -/
  | none
  /-- SHORT = 1. -/
  | short
  /-- LENGTH = 2. -/
  | length
  /-- CHECKSUM = 3. -/
  | checksum
  deriving DecidableEq, Repr

/-- The serializer SER (R20, R21 to R28). -/
structure Ser where
  /-- R21. -/
  txCmd   : Byte
  /-- R22. -/
  txLen   : BitVec 8
  /-- R24; ERR bit 0. -/
  txOvf   : Bool
  /-- R25. -/
  txState : TxState
  /-- R26. -/
  txIdx   : Position
  /-- R27. -/
  txCk    : Byte
  /-- R28. -/
  txDone  : Bool
  /-- R23, R61. -/
  txp     : Memory
  deriving DecidableEq, Repr

/-- The deserializer DES (R20, R29 to R37). -/
structure Des where
  /-- R29. -/
  rxState : RxState
  /-- R30. -/
  rxCnt   : Position
  /-- R32. -/
  rxCk    : Byte
  /-- R33. -/
  rxRes   : RxRes
  /-- R34. -/
  rxCause : RxCause
  /-- R35. -/
  ckOk    : Bool
  /-- R35. -/
  lenOk   : Bool
  /-- R36. -/
  rxFull  : Bool
  /-- R37. -/
  recSel  : Byte
  /-- R31, R62. -/
  rxb     : Memory
  deriving DecidableEq, Repr

/-- The common registers (R20): CTRL and the sticky error bits that live in no unit. -/
structure Common where
  /-- R38: CKV in bit 0, LENV in bit 1; the reserved bits 7:2 do not exist (log 13). -/
  ctrl     : BitVec 2
  /-- R40; ERR bit 1. -/
  errSeq   : Bool
  /-- R40; ERR bit 2. -/
  errIdx   : Bool
  /-- R40; ERR bit 3. -/
  errIllop : Bool
  deriving DecidableEq, Repr

/-- R45: one delivered byte of the inbound history, with whether it was stored or dropped. -/
structure Delivery where
  byte   : Byte
  stored : Bool
  deriving DecidableEq, Repr

/-- R20's state, the record of what crossed the interfaces (R14, R45), and the steps that come next (log 1). -/
structure State where
  /-- The serializer's registers and TXP. -/
  ser      : Ser
  /-- The deserializer's registers and RXB. -/
  des      : Des
  /-- CTRL, err_seq, err_idx, err_illop. -/
  common   : Common
  /-- R14: the 8-bit value the last host op returned (log 8). -/
  rdata    : Byte
  /-- R45: every byte EMIT has put on the line, first sent first. -/
  lineOut  : List Byte
  /-- R45: every byte LINE has delivered, first delivered first (log 9). -/
  lineIn   : List Delivery
  /-- R5, R71: the order in which the agents move, next first (log 1). -/
  schedule : List Stimulus
  deriving DecidableEq, Repr

/-- R60: the two memories. -/
inductive Space where
  /-- TXP. -/
  | txp
  /-- RXB. -/
  | rxb
  deriving DecidableEq, Repr

/-- Why a step can stop with a fault. No state that meets the invariants of R46 and R75 raises either. -/
inductive Fault where
  /-- Raised by EMIT (TXP), RXBYTE, the window close, RDCMD, RDPAY, RDREC (RXB) on reading a cell that holds
  no value (R75: never in a reachable state). Safe: the model stops where hardware returns some byte. -/
  | unwrittenCell (sp : Space) (a : Nat)
  /-- Raised by RXBYTE on writing an address RXB does not have (R62: never in a reachable state, by I4).
  Safe. -/
  | noSuchCell (sp : Space) (a : Nat)
  deriving DecidableEq, Repr

/-- Why a step can be refused. -/
inductive Refusal where
  /-- Raised by exec for an instruction that has no meaning yet. Safe. -/
  | notModelled (mnemonic : String)
  /-- Raised by EMIT in T_IDLE, where R138 and R141 say it is not enabled: there is no such step. Safe. -/
  | emitNotEnabled
  /-- Raised by step when a scheduled command frame is not one (R86): no agent can take that step. Safe. -/
  | notCommandFrame
  /-- Raised by step when a scheduled response frame is not one (R85, R90). Safe. -/
  | notResponseFrame
  /-- Raised by step when a scheduled discovery record is not one (R94). Safe. -/
  | notDiscoveryRecord
  deriving DecidableEq, Repr

/-- R261: SER after reset. -/
def Ser.reset : Ser :=
  { txCmd := 0x00, txLen := 0, txOvf := false, txState := .idle, txIdx := 0, txCk := 0x00, txDone := false
    txp := [] }

/-- R261: DES after reset. -/
def Des.reset : Des :=
  { rxState := .idle, rxCnt := 0, rxCk := 0x00, rxRes := .none, rxCause := .none, ckOk := false
    lenOk := false, rxFull := false, recSel := 0, rxb := [] }

/-- R261: CTRL and the error bits after reset. -/
def Common.reset : Common := { ctrl := 0, errSeq := false, errIdx := false, errIllop := false }

/-- R51, R261: the machine right after reset. Nothing has crossed an interface and nothing is scheduled
(logs 1, 8, 9). -/
def State.reset : State :=
  { ser := Ser.reset, des := Des.reset, common := Common.reset, rdata := 0x00, lineOut := [], lineIn := []
    schedule := [] }

end Sys2Proof.Machine
end

