-- ==== Sys2Proof/Machine/Ops.lean ====
section
/-! DEFINITION. The named operations over the memories and registers: one-byte memory access (R14), the
value a host op returns (R14), `raise` and the clearing of what it set (R15, R236), the checksum
accumulator's three operations (R118 to R121), reset (R260), the line streams (R45), and the schedule. -/

namespace Sys2Proof.Machine

/-- The outcome of a step of FC. -/
abbrev Result := Host.Outcome State Fault Refusal

/-- A computation that can only fault, as an outcome. -/
def orFault : Except Fault State → Result
  | .ok s => .next s
  | .error f => .fault f

/-! ### Memory (20_memory.md R60 to R62, R75) -/

/-- The canonical form: addresses strictly rising (so none is listed twice). An unlisted address reads as
no value, so no entry can equal what an unlisted one reads as. -/
abbrev Memory.wf (m : Memory) : Prop := m.Pairwise (fun c d => c.1 < d.1)

/-- Every listed address is below `depth` (R61: 255 for TXP, R62: RX_MAX for RXB). -/
abbrev Memory.within (depth : Nat) (m : Memory) : Prop := ∀ c ∈ m, c.1 < depth

/-- The value of the cell at `a`, if it holds one. -/
def Memory.cell : Memory → Nat → Option Byte
  | [], _ => none
  | (k, v) :: r, a => if k = a then some v else Memory.cell r a

/-- The cells after `M[a] <- b`, in canonical form. -/
def Memory.store : Memory → Nat → Byte → Memory
  | [], a, b => [(a, b)]
  | (k, v) :: r, a, b =>
    if a < k then (a, b) :: (k, v) :: r
    else if a = k then (a, b) :: r
    else (k, v) :: Memory.store r a b

/-- R14 `MemRead(M, a, 1)`; a cell that holds no value faults (log 7). -/
def Memory.load (sp : Space) (m : Memory) (a : Nat) : Except Fault Byte :=
  match m.cell a with
  | some b => .ok b
  | none => .error (.unwrittenCell sp a)

/-- R14 `MemWrite(M, a, 1, b)`; an address at or past `depth` does not exist (log 18). -/
def Memory.storeIn (sp : Space) (depth : Nat) (m : Memory) (a : Nat) (b : Byte) : Except Fault Memory :=
  if a < depth then .ok (m.store a b) else .error (.noSuchCell sp a)

/-- The memory holds the bytes `bs` at addresses 0, 1, .., `|bs| - 1`. -/
def Memory.Holds (m : Memory) (bs : List Byte) : Prop := ∀ i, i < bs.length → m.cell i = bs[i]?

/-! ### The host port (R14, R15) -/

/-- R14: `rdata <- v`. -/
def State.ret (s : State) (v : Byte) : State := { s with rdata := v }

/-- The error conditions a host op can raise (R15, R225). -/
inductive ErrKind where
  /-- R227. -/
  | txOverflow
  /-- R228. -/
  | seqError
  /-- R229. -/
  | idxError
  /-- R230. -/
  | illegalOp
  deriving DecidableEq, Repr

/-- R15, R234 `raise E`: the sticky bit of E in ERR (R40) is set, `rdata` is 0x00, nothing else changes.
There is no vector, no saved register and no mode. -/
def State.raise (s : State) : ErrKind → State
  | .txOverflow => { s with ser := { s.ser with txOvf := true }, rdata := 0x00 }
  | .seqError => { s with common := { s.common with errSeq := true }, rdata := 0x00 }
  | .idxError => { s with common := { s.common with errIdx := true }, rdata := 0x00 }
  | .illegalOp => { s with common := { s.common with errIllop := true }, rdata := 0x00 }

/-- R40, R236: a write of `d` to ERR clears bit i for i in 1, 2, 3 with `d[i] = 1`; TXOVF and the reserved
bits are not touched. This is the return from an error: there is no other. -/
def State.clearErr (s : State) (d : Byte) : State :=
  { s with common := { s.common with
      errSeq := s.common.errSeq && !d.getLsbD 1
      errIdx := s.common.errIdx && !d.getLsbD 2
      errIllop := s.common.errIllop && !d.getLsbD 3 } }

/-! ### The checksum accumulator CKA (R118 to R121) -/

/-- R119 `CKA.clear`: `acc <- CK_INIT`. -/
def ckaClear (cfg : Config) : Byte := cfg.ckInit
/-- R120 `CKA.absorb(b)`: `acc <- CK_STEP(acc, b)`. -/
def ckaAbsorb (cfg : Config) (acc b : Byte) : Byte := cfg.ckStep acc b
/-- R121 `CKA.result = CK_FINAL(acc)`; `acc` is not changed. -/
def ckaResult (cfg : Config) (acc : Byte) : Byte := cfg.ckFinal acc

/-! ### Reset (R260 to R263) -/

/-- R260, R213: every register of R20 takes its reset value; the cells of TXP and RXB are not written
(log 12); the streams are a history and stay (R262). -/
def State.resetRegisters (s : State) : State :=
  { s with
    ser := { Ser.reset with txp := s.ser.txp }
    des := { Des.reset with rxb := s.des.rxb }
    common := Common.reset }

/-! ### The line streams (R45) -/

/-- R14, R45: `line_out.push(b)`. -/
def State.pushOut (s : State) (b : Byte) : State := { s with lineOut := s.lineOut ++ [b] }

/-- R45: LINE has delivered `b`; it was stored or dropped. -/
def State.recordIn (s : State) (b : Byte) (stored : Bool) : State :=
  { s with lineIn := s.lineIn ++ [{ byte := b, stored := stored }] }

/-! ### The schedule (log 1) -/

/-- The next stimulus, and the state once it has been taken off the schedule. -/
def State.fetch (s : State) : Option (Stimulus × State) :=
  match s.schedule with
  | [] => none
  | e :: rest => some (e, { s with schedule := rest })

/-- The state with a stimulus put in front of the schedule. -/
def State.present (s : State) (e : Stimulus) : State := { s with schedule := e :: s.schedule }

end Sys2Proof.Machine
end

