-- ==== Sys2Proof/Machine/Operands.lean ====
section
/-! DEFINITION. Every operand form: the addresses of R97, the result guard of R164, the index guards of R166
and R196, and the derived views of a received frame (10_state.md R44). All sums are on naturals. -/

namespace Sys2Proof.Machine

/-- R61: TXPUSH stores at `tx_len`. -/
def Ser.storeAddr (t : Ser) : Nat := t.txLen.toNat

/-- R61, R138: EMIT at frame position `i` reads `TXP[i - 4]`. -/
def Ser.paramAddr (t : Ser) : Nat := t.txIdx.toNat - hdrLen

/-- R138: the frame position of the checksum byte, `4 + N`. -/
def Ser.lastIdx (t : Ser) : Nat := hdrLen + t.txLen.toNat

/-- R62: RXBYTE stores at `rx_cnt`. -/
def Des.storeAddr (r : Des) : Nat := r.rxCnt.toNat

/-- R164: `rx_state = R_DONE` and `rx_res = OK`, the state guard of every result read. -/
def Des.resultValid (r : Des) : Bool := r.rxState == .done && r.rxRes == .ok

/-- R44: `rx_plen = rx_cnt - 5`. -/
def Des.plen (r : Des) : Nat := r.rxCnt.toNat - minFrame

/-- R44: `nrec = rx_plen div 10`. -/
def Des.nrec (r : Des) : Nat := r.plen / discStride

/-- R44: `rx_cmd = RXB[2]`. -/
def cmdAddr : Nat := 2

/-- R35: the length indicator is `RXB[3]`. -/
def lenAddr : Nat := 3

/-- R97: `RDPAY d` reads `RXB[4 + d]`. -/
def payAddr (d : Byte) : Nat := hdrLen + d.toNat

/-- R166: `d` is a payload index. -/
def Des.payIndexOk (r : Des) (d : Byte) : Bool := decide (d.toNat < r.plen)

/-- R97: `RDREC d` reads `RXB[4 + 10 * rec_sel + d]`. -/
def Des.recAddr (r : Des) (d : Byte) : Nat := hdrLen + discStride * r.recSel.toNat + d.toNat

/-- R196: the selected record exists and `d` is an offset in it. -/
def Des.recIndexOk (r : Des) (d : Byte) : Bool := decide (r.recSel.toNat < r.nrec) && decide (d.toNat < discStride)

/-- R30: `rx_cnt[7:0]`. -/
def Des.cntLow (r : Des) : Byte := r.rxCnt.extractLsb' 0 8

/-- R42: `rx_cnt[8]` in bit 0. -/
def Des.cntHigh (r : Des) : Byte := (r.rxCnt.extractLsb' 8 1).setWidth 8

/-- The value a host op returns for a natural that fits a byte (R165, R197). -/
def natByte (n : Nat) : Byte := BitVec.ofNat 8 n

end Sys2Proof.Machine
end

