-- ==== Sys2Proof/Machine/Flags.lean ====
section
/-! DEFINITION. Every flag computation: the views STATUS, ERR and CAUSE bit by bit (10_state.md R39 to R41),
CTRL (R38), and the flags and verdict of a window close (R35, 42_deserializer.md R163). -/

namespace Sys2Proof.Machine

/-- R38: CTRL bit 0, CKV. -/
def Common.ckv (c : Common) : Bool := c.ctrl.getLsbD 0
/-- R38: CTRL bit 1, LENV. -/
def Common.lenv (c : Common) : Bool := c.ctrl.getLsbD 1

/-- R38: a read of CTRL; bits 7:2 read 0. -/
def Common.ctrlView (c : Common) : Byte := c.ctrl.setWidth 8

/-- R38, R211: the bits of `d` that a write to CTRL stores; bits 7:2 are ignored. -/
def ctrlBits (d : Byte) : BitVec 2 := d.extractLsb' 0 2

/-- R39: STATUS, from bit 7 (LENOK) down to bit 0 (TXBUSY). -/
def State.statusView (s : State) : Byte :=
  BitVec.ofBool s.des.lenOk ++ BitVec.ofBool s.des.ckOk ++
  BitVec.ofBool (s.des.rxRes == .malformed) ++ BitVec.ofBool (s.des.rxRes == .ok) ++
  BitVec.ofBool (s.des.rxState == .done) ++ BitVec.ofBool (s.des.rxState == .recv) ++
  BitVec.ofBool s.ser.txDone ++ BitVec.ofBool (s.ser.txState == .busy)

/-- R40: ERR; bits 7:4 read 0, then ILLOP, IDX, SEQ, TXOVF. -/
def State.errView (s : State) : Byte :=
  0#4 ++ BitVec.ofBool s.common.errIllop ++ BitVec.ofBool s.common.errIdx ++
  BitVec.ofBool s.common.errSeq ++ BitVec.ofBool s.ser.txOvf

/-- R34: the code of a cause. -/
def RxCause.code : RxCause → BitVec 2
  | .none => 0
  | .short => 1
  | .length => 2
  | .checksum => 3

/-- R41: CAUSE; bits 7:4 read 0, then RXFULL, RXEMPTY, and RXCAUSE in bits 1:0. -/
def Des.causeView (r : Des) : Byte :=
  0#4 ++ BitVec.ofBool r.rxFull ++ BitVec.ofBool (r.rxState == .done && r.rxCnt == 0) ++ r.rxCause.code

/-- R35, R163: `L = (RXB[3] = n - 5)`, as naturals. -/
def lenFlag (n : Nat) (lenByte : Byte) : Bool := lenByte.toNat == n - minFrame

/-- R35, R163: `K = (CK_FINAL(rx_ck') = RXB[n-1])`. -/
def ckFlag (cfg : Config) (acc lastByte : Byte) : Bool := ckaResult cfg acc == lastByte

/-- R163, R233: the result and cause of a window of at least 5 bytes; LENGTH before CHECKSUM. -/
def Common.verdict (c : Common) (lenOk ckOk : Bool) : RxRes × RxCause :=
  if c.lenv && !lenOk then (.malformed, .length)
  else if c.ckv && !ckOk then (.malformed, .checksum)
  else (.ok, .none)

end Sys2Proof.Machine
end

