-- ==== Sys2Proof/Machine/Deserializer.lean ====
section
/-! DEFINITION. The deserializer DES: RXARM, RXBYTE, RXEND, CloseWindow, RDCMD, RDPLEN and RDPAY
(42_deserializer.md R160 to R166). -/

namespace Sys2Proof.Machine

/-! ### The receive window -/

/-- R160: accepted in every state; no cell of RXB is erased. -/
def Des.arm (cfg : Config) (r : Des) : Des :=
  { r with
    rxState := .recv, rxCnt := 0, rxCk := ckaClear cfg, rxRes := .none, rxCause := .none
    ckOk := false, lenOk := false, rxFull := false, recSel := 0 }

/-- R163 `CloseWindow(n)`: SHORT below 5 bytes, else the two flags and CTRL's verdict. CTRL is read here
only. -/
def Des.close (cfg : Config) (c : Common) (n : Nat) (r : Des) : Except Fault Des :=
  if n < minFrame then
    .ok { r with rxState := .done, lenOk := false, ckOk := false, rxRes := .malformed, rxCause := .short }
  else
    match r.rxb.load .rxb lenAddr, r.rxb.load .rxb (n - 1) with
    | .ok lenByte, .ok lastByte =>
      let l := lenFlag n lenByte
      let k := ckFlag cfg r.rxCk lastByte
      .ok { r with
        rxState := .done, lenOk := l, ckOk := k
        rxRes := (c.verdict l k).1, rxCause := (c.verdict l k).2 }
    | .error f, _ => .error f
    | .ok _, .error f => .error f

/-- R161: the byte before byte number `k` is absorbed when `k >= 2`; absorption runs one byte behind. -/
def Des.absorbPrevious (cfg : Config) (r : Des) : Except Fault Byte :=
  if 2 ≤ r.rxCnt.toNat then
    match r.rxb.load .rxb (r.storeAddr - 1) with
    | .ok b => .ok (ckaAbsorb cfg r.rxCk b)
    | .error f => .error f
  else .ok r.rxCk

/-- R161 in R_RECV: store, absorb the previous byte, count. -/
def Des.storeByte (cfg : Config) (b : Byte) (r : Des) : Except Fault Des :=
  match r.absorbPrevious cfg, r.rxb.storeIn .rxb cfg.rxMax r.storeAddr b with
  | .ok acc, .ok m => .ok { r with rxb := m, rxCk := acc, rxCnt := r.rxCnt + 1 }
  | .error f, _ => .error f
  | .ok _, .error f => .error f

/-- R161 in R_RECV: the byte that fills the buffer closes the window in the same step. -/
def Des.receive (cfg : Config) (c : Common) (b : Byte) (r : Des) : Except Fault Des :=
  match r.storeByte cfg b with
  | .ok r' =>
    if r'.rxCnt.toNat = cfg.rxMax then { r' with rxFull := true }.close cfg c r'.rxCnt.toNat else .ok r'
  | .error f => .error f

/-- R161 `RXBYTE b`: a byte delivered outside a window is dropped; the inbound history records it (R45). -/
def State.rxByte (cfg : Config) (b : Byte) (s : State) : Except Fault State :=
  if s.des.rxState = .recv then
    match s.des.receive cfg s.common b with
    | .ok r => .ok (({ s with des := r } : State).recordIn b true)
    | .error f => .error f
  else .ok (s.recordIn b false)

/-- R162 `RXEND`: ignored without error outside R_RECV. -/
def State.rxEnd (cfg : Config) (s : State) : Except Fault State :=
  if s.des.rxState = .recv then
    match s.des.close cfg s.common s.des.rxCnt.toNat with
    | .ok r => .ok { s with des := r, rdata := 0x00 }
    | .error f => .error f
  else .ok (s.ret 0x00)

/-- RXARM (R160). -/
def execRxarm (s : State) : Result := .next { s with des := s.des.arm Config.device, rdata := 0x00 }
/-- RXEND (R162). -/
def execRxend (s : State) : Result := orFault (s.rxEnd Config.device)
/-- RXBYTE b (R161). -/
def execRxbyte (b : Byte) (s : State) : Result := orFault (s.rxByte Config.device b)

/-! ### Reading the result -/

/-- R164, R228: a result read with no valid result is refused with SeqError; otherwise it goes on. -/
def State.withResult (s : State) (read : Result) : Result :=
  if s.des.resultValid then read else .next (s.raise .seqError)

/-- R229: an index outside its range is refused with IdxError. -/
def State.withIndex (s : State) (ok : Bool) (read : Result) : Result :=
  if ok then read else .next (s.raise .idxError)

/-- `rdata <- RXB[a]`. -/
def State.readRxb (s : State) (a : Nat) : Result :=
  match s.des.rxb.load .rxb a with
  | .ok b => .next (s.ret b)
  | .error f => .fault f

/-- RDCMD (R164). -/
def execRdcmd (s : State) : Result := s.withResult (s.readRxb cmdAddr)
/-- RDPLEN (R165). -/
def execRdplen (s : State) : Result := s.withResult (.next (s.ret (natByte s.des.plen)))
/-- RDPAY d (R166). -/
def execRdpay (d : Byte) (s : State) : Result :=
  s.withResult (s.withIndex (s.des.payIndexOk d) (s.readRxb (payAddr d)))

end Sys2Proof.Machine
end

