-- ==== Sys2Proof/Machine/Discovery.lean ====
section
/-! DEFINITION. The record view: RECSEL, RDREC and RDNREC (43_discovery_records.md R195 to R197). -/

namespace Sys2Proof.Machine

/-- RECSEL d (R195): accepted in every state, for every `d`. -/
def execRecsel (d : Byte) (s : State) : Result :=
  .next { s with des := { s.des with recSel := d }, rdata := 0x00 }

/-- RDREC d (R196): SeqError, then IdxError, then the byte. -/
def execRdrec (d : Byte) (s : State) : Result :=
  s.withResult (s.withIndex (s.des.recIndexOk d) (s.readRxb (s.des.recAddr d)))

/-- RDNREC (R197). -/
def execRdnrec (s : State) : Result := s.withResult (.next (s.ret (natByte s.des.nrec)))

end Sys2Proof.Machine
end

