-- ==== Sys2Proof/Machine/Serializer.lean ====
section
/-! DEFINITION. The serializer SER: TXCLR, TXCMD, TXPUSH, TXGO and EMIT (41_serializer.md R134 to R138). -/

namespace Sys2Proof.Machine

/-! ### Loading a command -/

/-- R134. -/
def State.txClear (s : State) : State :=
  if s.ser.txState = .busy then s.raise .seqError
  else { s with ser := { s.ser with txLen := 0, txOvf := false }, rdata := 0x00 }

/-- R135. -/
def State.txCommand (s : State) (d : Byte) : State :=
  if s.ser.txState = .busy then s.raise .seqError
  else { s with ser := { s.ser with txCmd := d }, rdata := 0x00 }

/-- R136: SeqError is tested first; the 256th push is discarded and raises TxOverflow. -/
def State.txPush (s : State) (d : Byte) : State :=
  if s.ser.txState = .busy then s.raise .seqError
  else if s.ser.txLen = 255 then s.raise .txOverflow
  else { s with
    ser := { s.ser with txp := s.ser.txp.store s.ser.storeAddr d, txLen := s.ser.txLen + 1 }
    rdata := 0x00 }

/-- R137: an over-long command is never sent. -/
def State.txGo (s : State) : State :=
  if s.ser.txState = .busy then s.raise .seqError
  else if s.ser.txOvf then s.raise .seqError
  else { s with ser := { s.ser with txState := .busy, txIdx := 0, txDone := false }, rdata := 0x00 }

/-- TXCLR (R134). -/
def execTxclr (s : State) : Result := .next s.txClear
/-- TXCMD d (R135). -/
def execTxcmd (d : Byte) (s : State) : Result := .next (s.txCommand d)
/-- TXPUSH d (R136). -/
def execTxpush (d : Byte) (s : State) : Result := .next (s.txPush d)
/-- TXGO (R137). -/
def execTxgo (s : State) : Result := .next s.txGo

/-! ### Sending -/

/-- R138: the byte at the present frame position and the accumulator after the step, in the rule's order
of cases (`i = 0`, 1, 2, 3, `i < 4 + N`, else the checksum). -/
def Ser.nextByte (cfg : Config) (t : Ser) : Except Fault (Byte × Byte) :=
  let i := t.txIdx.toNat
  if i = 0 then .ok (cfg.syncByte, ckaClear cfg)
  else if i = 1 then .ok (cfg.versionByte, ckaAbsorb cfg t.txCk cfg.versionByte)
  else if i = 2 then .ok (t.txCmd, ckaAbsorb cfg t.txCk t.txCmd)
  else if i = 3 then .ok (t.txLen, ckaAbsorb cfg t.txCk t.txLen)
  else if i < t.lastIdx then
    match t.txp.load .txp t.paramAddr with
    | .ok b => .ok (b, ckaAbsorb cfg t.txCk b)
    | .error f => .error f
  else .ok (ckaResult cfg t.txCk, t.txCk)

/-- R138: the position after the step; the checksum step ends the frame. A position past the checksum is
reached in no state of R46 I2 (log 14). -/
def Ser.advance (t : Ser) : Ser :=
  if t.txIdx.toNat = t.lastIdx then { t with txState := .idle, txDone := true, txIdx := 0 }
  else { t with txIdx := t.txIdx + 1 }

/-- R138: one EMIT of a frame in flight. -/
def State.emitByte (cfg : Config) (s : State) : Except Fault State :=
  match s.ser.nextByte cfg with
  | .ok (b, acc) => .ok (({ s with ser := { s.ser.advance with txCk := acc } } : State).pushOut b)
  | .error f => .error f

/-- R138: EMIT under a configuration; not enabled in T_IDLE (R141, log 3). -/
def emitStep (cfg : Config) (s : State) : Result :=
  if s.ser.txState = .busy then orFault (s.emitByte cfg) else .refused .emitNotEnabled

/-- EMIT (R138). -/
def execEmit (s : State) : Result := emitStep Config.device s

/-- R142, R278: with nothing else scheduled, SER takes the EMIT that is enabled; in T_IDLE no agent moves
(log 2). -/
def idleStep (s : State) : Result :=
  if s.ser.txState = .busy then emitStep Config.device s else .next s

end Sys2Proof.Machine
end

