-- ==== Sys2Proof/WellFormed.lean ====
section
/-! DEFINITION. Which instructions have an encoding: the length limits of the wire formats. Every operand
value of a host op, of RXBYTE and of the frames' byte fields is legal (R99, R100). -/

namespace Sys2Proof

/-- R86, R132: a command frame has 0 to 255 parameters. R85: a frame has at most 255 variable bytes.
R94: the long address has 8 bytes. -/
def Instr.wellFormed : Instr → Bool
  | .nop => true
  | .txclr => true
  | .txcmd _ => true
  | .txpush _ => true
  | .txgo => true
  | .rxarm => true
  | .rxend => true
  | .rdcmd => true
  | .rdplen => true
  | .rdpay _ => true
  | .recsel _ => true
  | .rdrec _ => true
  | .rdnrec => true
  | .wrreg _ _ => true
  | .rdreg _ => true
  | .srst => true
  | .emit => true
  | .rxbyte _ => true
  | .reset => true
  | .cmdFrame _ params => decide (params.length ≤ txPMax)
  | .rspFrame _ _ _ _ payload _ => decide (payload.length ≤ maxFrame - minFrame)
  | .discRecord longAddr _ _ => decide (longAddr.length = longLen)

end Sys2Proof
end

