-- ==== Sys2Proof/Decode.lean ====
section
/-! DEFINITION. The decoder, total on every stimulus and rejecting by name, and the encoder, both from the
encoding tables of 30_encoding.md (R86, R90, R94, R96 to R101). -/

namespace Sys2Proof

/-! ### Host op words (R96 to R99) -/

/-- R96: `op = w[15:12]`. -/
def opField (w : OpWord) : BitVec 4 := w.extractLsb' 12 4
/-- R96: `a = w[11:8]`. -/
def aField (w : OpWord) : RegNo := w.extractLsb' 8 4
/-- R96: `d = w[7:0]`. -/
def dField (w : OpWord) : Byte := w.extractLsb' 0 8

/-- R96: the word with the three fields. -/
def opWord (op : BitVec 4) (a : RegNo) (d : Byte) : OpWord := op ++ a ++ d

/-- R99: an op that uses no field needs `a = 0` and `d = 0`. -/
def plainOp (a : RegNo) (d : Byte) (i : Instr) : Option Instr := if a = 0 ∧ d = 0 then some i else none
/-- R99: an op that uses `d` only needs `a = 0`. -/
def dataOp (a : RegNo) (i : Instr) : Option Instr := if a = 0 then some i else none
/-- R99: RDREG needs `d = 0`. -/
def regOp (d : Byte) (i : Instr) : Option Instr := if d = 0 then some i else none

/-- R98: the opcode map, on the three fields; `none` for a reserved word (R99). -/
def decodeFields (op : BitVec 4) (a : RegNo) (d : Byte) : Option Instr :=
  match op.toNat with
  | 0x0 => plainOp a d .nop
  | 0x1 => plainOp a d .txclr
  | 0x2 => dataOp a (.txcmd d)
  | 0x3 => dataOp a (.txpush d)
  | 0x4 => plainOp a d .txgo
  | 0x5 => plainOp a d .rxarm
  | 0x6 => plainOp a d .rxend
  | 0x7 => plainOp a d .rdcmd
  | 0x8 => plainOp a d .rdplen
  | 0x9 => dataOp a (.rdpay d)
  | 0xA => dataOp a (.recsel d)
  | 0xB => dataOp a (.rdrec d)
  | 0xC => plainOp a d .rdnrec
  | 0xD => some (.wrreg a d)
  | 0xE => regOp d (.rdreg a)
  | 0xF => plainOp a d .srst
  | _ => none

/-- R98, R99: the instruction of a host op word, `none` for the reserved words. -/
def decodeHost (w : OpWord) : Option Instr := decodeFields (opField w) (aField w) (dField w)

/-! ### Wire formats (R86, R90, R94) -/

/-- R86: a command frame has SYNC_BYTE, VERSION_BYTE, a parameter count equal to the number of parameters
that follow and the checksum of its region. -/
def decodeCommandFrame (cfg : Config) : List Byte → Option Instr
  | sync :: version :: c :: n :: rest =>
    let p := rest.dropLast
    if sync = cfg.syncByte ∧ version = cfg.versionByte ∧ n.toNat = p.length ∧
        rest.getLast? = some (LevelF.ck cfg ([version, c, n] ++ p)) then
      some (.cmdFrame c p)
    else none
  | _ => none

/-- R90: at least 5 bytes (R91), at most 260 (R85); no field is compared with anything (R92). -/
def decodeResponseFrame : List Byte → Option Instr
  | sync :: version :: c :: len :: rest =>
    match rest.getLast? with
    | some k =>
      if rest.length ≤ maxFrame - hdrLen then some (.rspFrame sync version c len rest.dropLast k) else none
    | none => none
  | _ => none

/-- R94: ten bytes, the long address and then the short address low byte first. -/
def decodeDiscoveryRecord (bs : List Byte) : Option Instr :=
  match bs.drop longLen with
  | [s0, s1] => some (.discRecord (bs.take longLen) s0 s1)
  | _ => none

/-! ### The decoder -/

/-- Why a stimulus is no instruction. -/
inductive DecodeError where
  /-- R99: a host op word outside the opcode map. -/
  | reservedWord (w : OpWord)
  /-- The bytes are not a command frame (R86). -/
  | notCommandFrame
  /-- The bytes are not a response frame (R85, R90, R91). -/
  | notResponseFrame
  /-- The bytes are not one discovery record (R94). -/
  | notDiscoveryRecord
  deriving DecidableEq, Repr

/-- An answer, or the name of what was rejected. -/
def orReject (e : DecodeError) : Option Instr → Except DecodeError Instr
  | some i => .ok i
  | none => .error e

/-- The decoder, total: R98 and R99 for the op port, R101 for the agent steps, R260 for reset, R86, R90 and
R94 for the wire formats. -/
def decode (cfg : Config) : Stimulus → Except DecodeError Instr
  | .host w => orReject (.reservedWord w) (decodeHost w)
  | .ser => .ok .emit
  | .line b => .ok (.rxbyte b)
  | .env => .ok .reset
  | .commandFrame bs => orReject .notCommandFrame (decodeCommandFrame cfg bs)
  | .responseFrame bs => orReject .notResponseFrame (decodeResponseFrame bs)
  | .discoveryRecord bs => orReject .notDiscoveryRecord (decodeDiscoveryRecord bs)

/-! ### The encoder -/

/-- The stimulus of an instruction, from the same tables: R98 (words), R101, R86, R90, R94. -/
def encode (cfg : Config) : Instr → Stimulus
  | .nop => .host (opWord 0x0 0 0)
  | .txclr => .host (opWord 0x1 0 0)
  | .txcmd d => .host (opWord 0x2 0 d)
  | .txpush d => .host (opWord 0x3 0 d)
  | .txgo => .host (opWord 0x4 0 0)
  | .rxarm => .host (opWord 0x5 0 0)
  | .rxend => .host (opWord 0x6 0 0)
  | .rdcmd => .host (opWord 0x7 0 0)
  | .rdplen => .host (opWord 0x8 0 0)
  | .rdpay d => .host (opWord 0x9 0 d)
  | .recsel d => .host (opWord 0xA 0 d)
  | .rdrec d => .host (opWord 0xB 0 d)
  | .rdnrec => .host (opWord 0xC 0 0)
  | .wrreg a d => .host (opWord 0xD a d)
  | .rdreg a => .host (opWord 0xE a 0)
  | .srst => .host (opWord 0xF 0 0)
  | .emit => .ser
  | .rxbyte b => .line b
  | .reset => .env
  | .cmdFrame c p => .commandFrame (LevelF.commandFrame cfg c p)
  | .rspFrame sync version c len payload k =>
    .responseFrame ([sync, version, c, len] ++ payload ++ [k])
  | .discRecord longAddr s0 s1 => .discoveryRecord (longAddr ++ [s0, s1])

/-! ### The host's numbering of a table row's bits -/

/-- The first `n` bytes of `w`, the first byte in bits 7..0 (opcode_table.json's numbering). -/
def tableBytes : Nat → Nat → List Byte
  | 0, _ => []
  | n + 1, w => BitVec.ofNat 8 w :: tableBytes n (w / 256)

/-- The stimulus that presents a table row's bits: 16 bits are a host op word (R96), 8 bits one RXBYTE
(R101), ten bytes a discovery record (R94), five bytes the shortest response frame (R91). EMIT and RESET
have no bits (log 16). -/
def tableStimulus (nbits w : Nat) : Option Stimulus :=
  match nbits with
  | 16 => some (.host (BitVec.ofNat 16 w))
  | 8 => some (.line (BitVec.ofNat 8 w))
  | 80 => some (.discoveryRecord (tableBytes 10 w))
  | 40 => some (.responseFrame (tableBytes 5 w))
  | _ => none

/-- The instruction the decoder reads from a table row's bits. -/
def decodeTableWord (nbits w : Nat) : Option Instr :=
  match tableStimulus nbits w with
  | some e => (decode Config.device e).toOption
  | none => none

end Sys2Proof
end

