-- ==== Sys2Proof/Machine/System.lean ====
section
/-! DEFINITION. NOP, WRREG, RDREG, SRST (44_system_ops.md R210 to R213), the reset event (R260), and what
becomes of a stimulus that is no instruction (R214). -/

namespace Sys2Proof.Machine

/-- NOP (R210). -/
def execNop (s : State) : Result := .next (s.ret 0x00)

/-- R211: CTRL and ERR are written; every other number is read-only or reserved. -/
def State.writeReg (s : State) (a : RegNo) (d : Byte) : State :=
  match a.toNat with
  | 0 => { s with common := { s.common with ctrl := ctrlBits d }, rdata := 0x00 }
  | 2 => (s.clearErr d).ret 0x00
  | _ => s.raise .illegalOp

/-- R43, R212: the value of register number `a`; `none` for the reserved numbers 9 to 15. -/
def State.regView (s : State) (a : RegNo) : Option Byte :=
  match a.toNat with
  | 0 => some s.common.ctrlView
  | 1 => some s.statusView
  | 2 => some s.errView
  | 3 => some s.des.causeView
  | 4 => some s.ser.txCmd
  | 5 => some s.ser.txLen
  | 6 => some s.des.cntLow
  | 7 => some s.des.cntHigh
  | 8 => some s.des.recSel
  | _ => none

/-- R212: a read has no side effect; a reserved number raises IllegalOp. -/
def State.readReg (s : State) (a : RegNo) : State :=
  match s.regView a with
  | some v => s.ret v
  | none => s.raise .illegalOp

/-- WRREG a, d (R211). -/
def execWrreg (a : RegNo) (d : Byte) (s : State) : Result := .next (s.writeReg a d)
/-- RDREG a (R212). -/
def execRdreg (a : RegNo) (s : State) : Result := .next (s.readReg a)
/-- SRST (R213, R263): the effect of reset, and `rdata = 0x00`. -/
def execSrst (s : State) : Result := .next (s.resetRegisters.ret 0x00)
/-- RESET (R260): the environment's step; no host op returns (log 8). -/
def execReset (s : State) : Result := .next s.resetRegisters

/-- R99, R214: a reserved op word executes as `raise IllegalOp`. A wire stimulus that is not the encoding
of its frame is no step of FC (log 16). -/
def rejectStep (s : State) : DecodeError → Result
  | .reservedWord _ => .next (s.raise .illegalOp)
  | .notCommandFrame => .refused .notCommandFrame
  | .notResponseFrame => .refused .notResponseFrame
  | .notDiscoveryRecord => .refused .notDiscoveryRecord

end Sys2Proof.Machine
end

