-- ==== Sys2Proof/Machine/Wire.lean ====
section
/-! DEFINITION. The three wire formats of the opcode table as bursts of the spec's own steps: CMD_FRAME is
ENCODE and then DRAIN, RSP_FRAME and DISC_RECORD are FEED (30_encoding.md R86, R90, R94, R103; logs 4 to 6). -/

namespace Sys2Proof.Machine

/-- R103 `ENCODE c, p`: TXCLR; TXCMD c; TXPUSH of each parameter; TXGO. -/
def State.load (s : State) (c : Byte) (p : List Byte) : State :=
  (p.foldl State.txPush (s.txClear.txCommand c)).txGo

/-- At most `fuel` EMIT steps, stopping when SER is idle. -/
def State.emits (cfg : Config) : Nat → State → Except Fault State
  | 0, s => .ok s
  | fuel + 1, s =>
    if s.ser.txState = .busy then
      match s.emitByte cfg with
      | .ok s' => State.emits cfg fuel s'
      | .error f => .error f
    else .ok s

/-- R103 `DRAIN`: as many EMIT steps as are enabled, until T_IDLE. The 9-bit position reaches the checksum
position of any frame within 512 + 260 steps, so the bound cuts nothing off (log 20). -/
def State.drain (cfg : Config) (s : State) : Except Fault State := State.emits cfg 772 s

/-- R103 `FEED b0 .. bk`: the LINE steps RXBYTE b0; ..; RXBYTE bk. -/
def State.feed (cfg : Config) : List Byte → State → Except Fault State
  | [], s => .ok s
  | b :: bs, s =>
    match s.rxByte cfg b with
    | .ok s' => State.feed cfg bs s'
    | .error f => .error f

/-- CMD_FRAME (R86, R103). -/
def execCmdFrame (c : Byte) (params : List Byte) (s : State) : Result :=
  orFault ((s.load c params).drain Config.device)

/-- RSP_FRAME (R90, R103). -/
def execRspFrame (sync version command len : Byte) (payload : List Byte) (checksum : Byte) (s : State) :
    Result :=
  orFault (s.feed Config.device ([sync, version, command, len] ++ payload ++ [checksum]))

/-- DISC_RECORD (R94, R103). -/
def execDiscRecord (longAddr : List Byte) (s0 s1 : Byte) (s : State) : Result :=
  orFault (s.feed Config.device (longAddr ++ [s0, s1]))

end Sys2Proof.Machine
end

