-- ==== Sys2Proof/Machine/Dispatch.lean ====
section
/-! DEFINITION. One arm per constructor of Instr: the meaning it calls. -/

namespace Sys2Proof.Machine

def exec (i : Instr) (s : State) : Host.Outcome State Fault Refusal :=
  match i with
  | .nop => Sys2Proof.Machine.execNop s
  | .txclr => Sys2Proof.Machine.execTxclr s
  | .txcmd d => Sys2Proof.Machine.execTxcmd d s
  | .txpush d => Sys2Proof.Machine.execTxpush d s
  | .txgo => Sys2Proof.Machine.execTxgo s
  | .rxarm => Sys2Proof.Machine.execRxarm s
  | .rxend => Sys2Proof.Machine.execRxend s
  | .rdcmd => Sys2Proof.Machine.execRdcmd s
  | .rdplen => Sys2Proof.Machine.execRdplen s
  | .rdpay d => Sys2Proof.Machine.execRdpay d s
  | .recsel d => Sys2Proof.Machine.execRecsel d s
  | .rdrec d => Sys2Proof.Machine.execRdrec d s
  | .rdnrec => Sys2Proof.Machine.execRdnrec s
  | .wrreg a d => Sys2Proof.Machine.execWrreg a d s
  | .rdreg a => Sys2Proof.Machine.execRdreg a s
  | .srst => Sys2Proof.Machine.execSrst s
  | .emit => Sys2Proof.Machine.execEmit s
  | .rxbyte b => Sys2Proof.Machine.execRxbyte b s
  | .reset => Sys2Proof.Machine.execReset s
  | .cmdFrame c params => Sys2Proof.Machine.execCmdFrame c params s
  | .rspFrame sync version command len payload checksum => Sys2Proof.Machine.execRspFrame sync version command len payload checksum s
  | .discRecord longAddr s0 s1 => Sys2Proof.Machine.execDiscRecord longAddr s0 s1 s

end Sys2Proof.Machine
end

