-- ==== Sys2Proof/Machine/Step.lean ====
section
/-! DEFINITION. One step of FC: the agent the schedule names moves (00_scope.md R5, 20_memory.md R71). -/

namespace Sys2Proof.Machine

/-- R71: take the next stimulus, decode it and execute it; a reserved word executes as `raise IllegalOp`
(R214); with nothing scheduled SER moves if it can (logs 1, 2). -/
def step (s : State) : Host.Outcome State Fault Refusal :=
  match s.fetch with
  | none => idleStep s
  | some (e, s') =>
    match decode Config.device e with
    | .ok i => exec i s'
    | .error r => rejectStep s' r

/-- The state in which the very next step runs the instruction of a table row's bits: its stimulus stands
first in the schedule (log 1). -/
def State.withFetchWord (s : State) (nbits w : Nat) : State :=
  match tableStimulus nbits w with
  | some e => s.present e
  | none => s

end Sys2Proof.Machine
end

