-- ==== Sys2Proof/Safety.lean ====
section
/-! DEFINITION. The terms claims are made in: the invariants of 10_state.md R46 and 20_memory.md R75, the end
of a transaction (00_scope.md R18), a clean ERR (60_exceptions.md R239), and runs of several steps. -/

namespace Sys2Proof.Machine

/-- The parameters loaded in TXP: `TXP[0..tx_len) = p` (R139). -/
def Ser.Loaded (t : Ser) (p : List Byte) : Prop := p.length = t.txLen.toNat ∧ t.txp.Holds p

/-- The cells after storing `bs` at `a`, `a + 1`, .. : what a burst of stores leaves (R61, R62). -/
def Memory.storeAll : Memory → Nat → List Byte → Memory
  | m, _, [] => m
  | m, a, b :: bs => Memory.storeAll (m.store a b) (a + 1) bs

/-- R138, R139: SER after the last EMIT of the frame of the parameters `p`. -/
def Ser.sent (cfg : Config) (t : Ser) (p : List Byte) : Ser :=
  { t with
    txState := .idle, txDone := true, txIdx := 0
    txCk := LevelF.ckFold cfg (LevelF.region (LevelF.commandFrame cfg t.txCmd p)) }

/-- R103, R136, R137: SER after ENCODE c, p in T_IDLE. -/
def Ser.loadedWith (t : Ser) (c : Byte) (p : List Byte) : Ser :=
  { t with
    txCmd := c, txLen := BitVec.ofNat 8 p.length, txOvf := false, txState := .busy, txIdx := 0
    txDone := false, txp := t.txp.storeAll 0 p }

/-- R139: the frame being sent, `Encode(tx_cmd, p)`. -/
def Ser.frame (cfg : Config) (t : Ser) (p : List Byte) : List Byte := LevelF.commandFrame cfg t.txCmd p

/-- R46 I3: the fold over the frame's bytes `F[1..min(i, 4 + tx_len))`. -/
def Ser.accAt (cfg : Config) (t : Ser) (p : List Byte) (i : Nat) : Byte :=
  LevelF.ckFold cfg (LevelF.slice (t.frame cfg p) 1 (min i t.lastIdx))

/-- The bytes of the present or last window: `RXB[0..rx_cnt) = b` (R169). -/
def Des.Window (r : Des) (b : List Byte) : Prop := b.length = r.rxCnt.toNat ∧ r.rxb.Holds b

/-- R46 I1 to I3 and R75 for the serializer; and R28, R137: `tx_done` is 0 while a frame is being sent. -/
structure SerInv (cfg : Config) (t : Ser) : Prop where
  /-- TXP is in canonical form. -/
  txpWf     : t.txp.wf
  /-- R61: TXP has addresses 0 to 254. -/
  txpWithin : t.txp.within txPMax
  /-- I1. -/
  ovfFull   : t.txOvf = true → t.txLen = 255
  /-- I2 in T_BUSY. -/
  busyIdx   : t.txState = .busy → t.txIdx.toNat ≤ t.lastIdx
  /-- I2 in T_IDLE. -/
  idleIdx   : t.txState = .idle → t.txIdx = 0
  /-- R28, R137. -/
  busyDone  : t.txState = .busy → t.txDone = false
  /-- R75: every address below `tx_len` holds a byte; I3: the accumulator of the frame being sent. -/
  loaded    : ∃ p, t.Loaded p ∧
    (t.txState = .busy → 1 ≤ t.txIdx.toNat → t.txCk = t.accAt cfg p t.txIdx.toNat)

/-- R169: what DES reports of a window `b` that closes under CTRL: `Decode` first, then the enabled checks. -/
def Common.report (cfg : Config) (c : Common) (b : List Byte) : RxRes × RxCause :=
  match LevelF.decode b with
  | .error _ => (.malformed, .short)
  | .ok _ =>
    if c.lenv && !LevelF.lengthOk b then (.malformed, .length)
    else if c.ckv && !LevelF.checksumOk cfg b then (.malformed, .checksum)
    else (.ok, .none)

/-- R169: DES after the close of a window `b`, in level-F terms. -/
def Des.closed (cfg : Config) (c : Common) (b : List Byte) (r : Des) : Des :=
  { r with
    rxState := .done, ckOk := LevelF.checksumOk cfg b, lenOk := LevelF.lengthOk b
    rxRes := (c.report cfg b).1, rxCause := (c.report cfg b).2 }

/-- R161: DES with one more byte `x` in the window `b`. -/
def Des.stored (cfg : Config) (b : List Byte) (x : Byte) (r : Des) : Des :=
  { r with
    rxb := r.rxb.store r.storeAddr x, rxCk := LevelF.ckFold cfg (LevelF.region (b ++ [x]))
    rxCnt := r.rxCnt + 1 }

/-- R46 I4 to I9 and R75 for the deserializer; and R34, R35: what the flags and SHORT mean. -/
structure DesInv (cfg : Config) (r : Des) : Prop where
  /-- RXB is in canonical form. -/
  rxbWf     : r.rxb.wf
  /-- R62: RXB has addresses 0 to RX_MAX - 1. -/
  rxbWithin : r.rxb.within cfg.rxMax
  /-- I4. -/
  cntMax    : r.rxCnt.toNat ≤ cfg.rxMax
  /-- I4 in R_RECV. -/
  recvCnt   : r.rxState = .recv → r.rxCnt.toNat < cfg.rxMax
  /-- R75: every address below `rx_cnt` holds a byte; I5, where the region is empty below 3 bytes; R35 and
  R163: in R_DONE the flags are ChecksumOk and LengthOk of the window. -/
  window    : ∃ b, r.Window b ∧
    (r.rxState ≠ .idle → r.rxCk = LevelF.ckFold cfg (LevelF.region b)) ∧
    (r.rxState = .done → r.ckOk = LevelF.checksumOk cfg b ∧ r.lenOk = LevelF.lengthOk b)
  /-- R35, R269: in every other state both flags read 0. -/
  openFlags : r.rxState ≠ .done → r.ckOk = false ∧ r.lenOk = false
  /-- I6. -/
  resNone   : r.rxRes = .none ↔ r.rxState ≠ .done
  /-- I7. -/
  causeMalf : r.rxCause ≠ .none ↔ r.rxRes = .malformed
  /-- I8. -/
  okCnt     : r.rxRes = .ok → minFrame ≤ r.rxCnt.toNat
  /-- R34: SHORT means fewer than 5 bytes in the window. -/
  shortCnt  : r.rxCause = .short ↔ r.rxState = .done ∧ r.rxCnt.toNat < minFrame
  /-- I9. -/
  fullDone  : r.rxFull = true → r.rxState = .done ∧ r.rxCnt.toNat = cfg.rxMax

/-- The invariants of R46 (I1 to I9; I10 is about steps) and R75. -/
structure Inv (s : State) : Prop where
  ser : SerInv Config.device s.ser
  des : DesInv Config.device s.des

/-- R239: the postcondition a host program should ask for, `ERR = 0x00`. -/
def ErrClear (s : State) : Prop := s.errView = 0x00

/-- R18: the transaction is over. -/
def TransactionOver (s : State) : Prop :=
  s.ser.txState = .idle ∧ s.ser.txDone = true ∧ s.des.rxState = .done

/-- The host ops of R98: the instructions that return `rdata`. -/
def isHostOp : Instr → Bool
  | .nop => true
  | .txclr => true
  | .txcmd _ => true
  | .txpush _ => true
  | .txgo => true
  | .rxarm => true
  | .rxend => true
  | .rdcmd => true
  | .rdplen => true
  | .rdpay _ => true
  | .recsel _ => true
  | .rdrec _ => true
  | .rdnrec => true
  | .wrreg _ _ => true
  | .rdreg _ => true
  | .srst => true
  | .emit => false
  | .rxbyte _ => false
  | .reset => false
  | .cmdFrame _ _ => false
  | .rspFrame _ _ _ _ _ _ => false
  | .discRecord _ _ _ => false

/-- R98: the `match` and `mask` columns of the opcode map, row by row from NOP to SRST. -/
def opcodeMap : List (OpWord × OpWord) :=
  [(0x0000, 0xFFFF), (0x1000, 0xFFFF), (0x2000, 0xFF00), (0x3000, 0xFF00), (0x4000, 0xFFFF),
   (0x5000, 0xFFFF), (0x6000, 0xFFFF), (0x7000, 0xFFFF), (0x8000, 0xFFFF), (0x9000, 0xFF00),
   (0xA000, 0xFF00), (0xB000, 0xFF00), (0xC000, 0xFFFF), (0xD000, 0xF000), (0xE000, 0xF0FF),
   (0xF000, 0xFFFF)]

/-- R69: the host ops whose immediate repetition leaves the state of a single issue: all but TXPUSH and
TXGO. -/
def repeatable (i : Instr) : Bool :=
  match i with
  | .txpush _ => false
  | .txgo => false
  | i => isHostOp i

/-- R71: the instructions one after another, stopping at the first fault or refusal. -/
def execAll : List Instr → State → Result
  | [], s => .next s
  | i :: is, s =>
    match exec i s with
    | .next s' => execAll is s'
    | .fault f => .fault f
    | .refused r => .refused r

/-- R138: the number of EMIT steps among the instructions. -/
def emitCount (is : List Instr) : Nat := is.countP (· == .emit)

/-- R161: the byte an RXBYTE step delivers. -/
def deliveredByte : Instr → Option Byte
  | .rxbyte b => some b
  | _ => none

/-- R169: the bytes delivered by the RXBYTE steps among the instructions, in order. -/
def deliveredBytes (is : List Instr) : List Byte := is.filterMap deliveredByte

/-- R139: the steps that may be interleaved with a frame being sent: host ops other than SRST, and RXBYTE. -/
def besideSending (i : Instr) : Bool := (isHostOp i && i != .srst) || (deliveredByte i).isSome

/-- R169: the steps that may be interleaved with an open window besides RXBYTE: host ops other than RXARM,
RXEND, SRST and WRREG 0, and EMIT. -/
def besideWindow : Instr → Bool
  | .rxarm => false
  | .rxend => false
  | .srst => false
  | .wrreg a _ => a != 0
  | .emit => true
  | i => isHostOp i

end Sys2Proof.Machine
end

