-- ==== Sys2Proof/Certificates/Slice0/Obligations.lean ====
section
/-! DEFINITION. The statements about FC, from the numbered rules of spec/. -/

open Sys2Proof Sys2Proof.Machine

/-! ### Reset -/

/-- R51, with the values of R20's table: what every register holds right after reset; and that every readable
register then reads 0x00 (R261). -/
def Obligations.ResetRegisterValues : Prop :=
  State.reset.ser.txState = .idle ∧ State.reset.ser.txIdx = 0 ∧ State.reset.ser.txCmd = 0x00 ∧
  State.reset.ser.txLen = 0 ∧ State.reset.ser.txOvf = false ∧ State.reset.ser.txCk = 0x00 ∧
  State.reset.ser.txDone = false ∧ State.reset.des.rxState = .idle ∧ State.reset.des.rxCnt = 0 ∧
  State.reset.des.rxCk = 0x00 ∧ State.reset.des.rxRes = .none ∧ State.reset.des.rxCause = .none ∧
  State.reset.des.ckOk = false ∧ State.reset.des.lenOk = false ∧ State.reset.des.rxFull = false ∧
  State.reset.des.recSel = 0 ∧ State.reset.common.ctrl = 0 ∧ State.reset.common.errSeq = false ∧
  State.reset.common.errIdx = false ∧ State.reset.common.errIllop = false ∧
  ∀ a : RegNo, a.toNat ≤ 8 → exec (.rdreg a) State.reset = .next { State.reset with rdata := 0x00 }

/-- R261: all the invariants hold in the reset state. -/
def Obligations.ResetMeetsInvariants : Prop := Inv State.reset

/-! ### Invariants and completion -/

/-- R46 (I1 to I9) and R75: every step of the machine keeps the invariants. -/
def Obligations.StepKeepsInvariants : Prop :=
  ∀ s t : State, Inv s → step s = .next t → Inv t

/-- R239, R278 (d), R138: in a state that meets the invariants every instruction completes, in every state of
SER and DES, except an EMIT where it is not enabled: the host ops (R278 (d)), EMIT in T_BUSY, RXBYTE and reset
as single steps of the spec, and CMD_FRAME, RSP_FRAME and DISC_RECORD as the bursts of such steps that the
model runs in one (the model's choice: logs 4, 5, 6). -/
def Obligations.EveryStepCompletes : Prop :=
  ∀ (s : State) (i : Instr), Inv s → (i = .emit → s.ser.txState = .busy) → ∃ t, exec i s = .next t

/-- R142: a frame in flight is finished by as many steps as bytes remain when no other agent moves; the
rest of the frame is on the line in order. That SER moves when nothing is scheduled is the model's form of its
weak fairness (log 2). -/
def Obligations.StartedFrameIsFinished : Prop :=
  ∀ (s : State) (p : List Byte), Inv s → s.schedule = [] → s.ser.txState = .busy → s.ser.Loaded p →
    ∃ t, Host.Core.run Sys2Proof.core (5 + s.ser.txLen.toNat - s.ser.txIdx.toNat) s = .next t ∧
      t.ser.txState = .idle ∧ t.ser.txDone = true ∧ t.ser.txIdx = 0 ∧
      t.lineOut = s.lineOut ++ (LevelF.commandFrame Config.device s.ser.txCmd p).drop s.ser.txIdx.toNat ∧
      t.des = s.des

/-! ### Encoding and the step -/

/-- Decode and encode agree on every well-formed instruction, whatever the configuration. -/
def Obligations.DecodeReadsEncode : Prop :=
  ∀ (cfg : Config) (i : Instr), i.wellFormed = true → decode cfg (encode cfg i) = .ok i

/-- Each stimulus has one meaning: what decodes is well formed and encodes to the stimulus it came from. -/
def Obligations.EncodeReadsDecode : Prop :=
  ∀ (cfg : Config) (e : Stimulus) (i : Instr), decode cfg e = .ok i →
    i.wellFormed = true ∧ encode cfg i = e

/-- The words of V-O1 of 95_test_vectors.md, written out from the spec, decode to their ops. -/
def Obligations.WrittenOutWordsDecode : Prop :=
  decodeHost 0x0000 = some .nop ∧ decodeHost 0x2021 = some (.txcmd 0x21) ∧
  decodeHost 0x30FF = some (.txpush 0xFF) ∧ decodeHost 0x90FE = some (.rdpay 254) ∧
  decodeHost 0xA018 = some (.recsel 24) ∧ decodeHost 0xB009 = some (.rdrec 9) ∧
  decodeHost 0xD20E = some (.wrreg 2 0x0E) ∧ decodeHost 0xE800 = some (.rdreg 8) ∧
  decodeHost 0xF000 = some .srst ∧ decodeHost 0x0001 = none ∧ decodeHost 0x2121 = none ∧
  decodeHost 0xE1FF = none

/-- R98: a word is the op iff `w & mask = match`, row by row. -/
def Obligations.OpcodeMapMatchesMask : Prop :=
  ∀ w : OpWord,
    (w &&& 0xFFFF = 0x0000 ↔ decodeHost w = some .nop) ∧
    (w &&& 0xFFFF = 0x1000 ↔ decodeHost w = some .txclr) ∧
    (w &&& 0xFF00 = 0x2000 ↔ decodeHost w = some (.txcmd (dField w))) ∧
    (w &&& 0xFF00 = 0x3000 ↔ decodeHost w = some (.txpush (dField w))) ∧
    (w &&& 0xFFFF = 0x4000 ↔ decodeHost w = some .txgo) ∧
    (w &&& 0xFFFF = 0x5000 ↔ decodeHost w = some .rxarm) ∧
    (w &&& 0xFFFF = 0x6000 ↔ decodeHost w = some .rxend) ∧
    (w &&& 0xFFFF = 0x7000 ↔ decodeHost w = some .rdcmd) ∧
    (w &&& 0xFFFF = 0x8000 ↔ decodeHost w = some .rdplen) ∧
    (w &&& 0xFF00 = 0x9000 ↔ decodeHost w = some (.rdpay (dField w))) ∧
    (w &&& 0xFF00 = 0xA000 ↔ decodeHost w = some (.recsel (dField w))) ∧
    (w &&& 0xFF00 = 0xB000 ↔ decodeHost w = some (.rdrec (dField w))) ∧
    (w &&& 0xFFFF = 0xC000 ↔ decodeHost w = some .rdnrec) ∧
    (w &&& 0xF000 = 0xD000 ↔ decodeHost w = some (.wrreg (aField w) (dField w))) ∧
    (w &&& 0xF0FF = 0xE000 ↔ decodeHost w = some (.rdreg (aField w))) ∧
    (w &&& 0xFFFF = 0xF000 ↔ decodeHost w = some .srst) ∧
    ((∀ row ∈ opcodeMap, w &&& row.2 ≠ row.1) ↔ decodeHost w = none)

/-- R214: a word that matches no row executes as `raise IllegalOp`, in every state. -/
def Obligations.ReservedWordRaisesIllegalOp : Prop :=
  ∀ (s : State) (w : OpWord) (rest : List Stimulus), s.schedule = .host w :: rest →
    (∀ row ∈ opcodeMap, w &&& row.2 ≠ row.1) →
    step s = .next { s with
      common := { s.common with errIllop := true }, rdata := 0x00, schedule := rest }

/-- R71: a step takes the next stimulus off the schedule and runs the instruction it decodes to. -/
def Obligations.StepRunsDecodedInstruction : Prop :=
  ∀ (s : State) (e : Stimulus) (rest : List Stimulus) (i : Instr), s.schedule = e :: rest →
    decode Config.device e = .ok i → step s = exec i { s with schedule := rest }

/-- The model's choices (logs 2, 3), after R138, R142 and R278: with nothing scheduled SER takes its enabled
EMIT, and in T_IDLE nothing happens; an EMIT scheduled where it is not enabled is refused by name. -/
def Obligations.UnscheduledStepIsSersOrNone : Prop :=
  ∀ s : State,
    (s.schedule = [] → s.ser.txState = .busy → step s = exec .emit s) ∧
    (s.schedule = [] → s.ser.txState = .idle → step s = .next s) ∧
    (s.ser.txState = .idle → exec .emit s = .refused .emitNotEnabled)

/-- R15: what `raise` does, bit by bit of ERR (R40): one sticky bit, `rdata`, nothing else. -/
def Obligations.RaiseSetsOneStickyBit : Prop :=
  ∀ s : State,
    (s.raise .txOverflow = { s with ser := { s.ser with txOvf := true }, rdata := 0x00 } ∧
      (s.raise .txOverflow).errView = s.errView ||| 0x01) ∧
    (s.raise .seqError = { s with common := { s.common with errSeq := true }, rdata := 0x00 } ∧
      (s.raise .seqError).errView = s.errView ||| 0x02) ∧
    (s.raise .idxError = { s with common := { s.common with errIdx := true }, rdata := 0x00 } ∧
      (s.raise .idxError).errView = s.errView ||| 0x04) ∧
    (s.raise .illegalOp = { s with common := { s.common with errIllop := true }, rdata := 0x00 } ∧
      (s.raise .illegalOp).errView = s.errView ||| 0x08)

/-! ### System ops -/

/-- R210. -/
def Obligations.NopReturnsZero : Prop :=
  ∀ s : State, decode Config.device (.host 0x0000) = .ok .nop ∧ exec .nop s = .next { s with rdata := 0x00 }

/-- R211: every register number; CTRL takes `d[1:0]`, ERR is write one to clear, the rest raise IllegalOp. -/
def Obligations.WrregWritesCtrlAndClearsErr : Prop :=
  ∀ (s : State) (a : RegNo) (d : Byte),
    decode Config.device (.host (0xD000#16 ||| (a.setWidth 16 <<< 8) ||| d.setWidth 16)) = .ok (.wrreg a d) ∧
    (a = 0 → exec (.wrreg a d) s = .next { s with
      common := { s.common with ctrl := d.extractLsb' 0 2 }, rdata := 0x00 }) ∧
    (a = 2 → exec (.wrreg a d) s = .next { s with
      common := { s.common with
        errSeq := if d.getLsbD 1 then false else s.common.errSeq
        errIdx := if d.getLsbD 2 then false else s.common.errIdx
        errIllop := if d.getLsbD 3 then false else s.common.errIllop }
      rdata := 0x00 }) ∧
    (a ≠ 0 → a ≠ 2 → exec (.wrreg a d) s = .next { s with
      common := { s.common with errIllop := true }, rdata := 0x00 })

/-- R212: every register number; what RDREG returns, and IllegalOp for 9 to 15. -/
def Obligations.RdregReturnsRegister : Prop :=
  ∀ (s : State) (a : RegNo),
    decode Config.device (.host (0xE000#16 ||| (a.setWidth 16 <<< 8))) = .ok (.rdreg a) ∧
    (a = 0 → exec (.rdreg a) s = .next { s with rdata := s.common.ctrl.setWidth 8 }) ∧
    (a = 1 → exec (.rdreg a) s = .next { s with rdata := s.statusView }) ∧
    (a = 2 → ∃ v : Byte, v.toNat = 8 * s.common.errIllop.toNat + 4 * s.common.errIdx.toNat +
      2 * s.common.errSeq.toNat + s.ser.txOvf.toNat ∧ exec (.rdreg a) s = .next { s with rdata := v }) ∧
    (a = 3 → exec (.rdreg a) s = .next { s with rdata := s.des.causeView }) ∧
    (a = 4 → exec (.rdreg a) s = .next { s with rdata := s.ser.txCmd }) ∧
    (a = 5 → exec (.rdreg a) s = .next { s with rdata := s.ser.txLen }) ∧
    (a = 6 → ∃ v : Byte, v.toNat = s.des.rxCnt.toNat % 256 ∧
      exec (.rdreg a) s = .next { s with rdata := v }) ∧
    (a = 7 → ∃ v : Byte, v.toNat = s.des.rxCnt.toNat / 256 ∧
      exec (.rdreg a) s = .next { s with rdata := v }) ∧
    (a = 8 → exec (.rdreg a) s = .next { s with rdata := s.des.recSel }) ∧
    (9 ≤ a.toNat → exec (.rdreg a) s = .next { s with
      common := { s.common with errIllop := true }, rdata := 0x00 })

/-- R39, R40 and R41: the bits of STATUS, ERR and CAUSE, with the cause codes of R34 and R225. -/
def Obligations.StatusErrAndCauseBits : Prop :=
  ∀ s : State,
    (s.statusView.getLsbD 0 = decide (s.ser.txState = .busy) ∧ s.statusView.getLsbD 1 = s.ser.txDone ∧
      s.statusView.getLsbD 2 = decide (s.des.rxState = .recv) ∧
      s.statusView.getLsbD 3 = decide (s.des.rxState = .done) ∧
      s.statusView.getLsbD 4 = decide (s.des.rxRes = .ok) ∧
      s.statusView.getLsbD 5 = decide (s.des.rxRes = .malformed) ∧
      s.statusView.getLsbD 6 = s.des.ckOk ∧ s.statusView.getLsbD 7 = s.des.lenOk) ∧
    (s.errView.getLsbD 0 = s.ser.txOvf ∧ s.errView.getLsbD 1 = s.common.errSeq ∧
      s.errView.getLsbD 2 = s.common.errIdx ∧ s.errView.getLsbD 3 = s.common.errIllop ∧
      s.errView.extractLsb' 4 4 = 0) ∧
    (RxCause.none.code = 0 ∧ RxCause.short.code = 1 ∧ RxCause.length.code = 2 ∧
      RxCause.checksum.code = 3 ∧ s.des.causeView.extractLsb' 0 2 = s.des.rxCause.code ∧
      s.des.causeView.getLsbD 2 = decide (s.des.rxState = .done ∧ s.des.rxCnt = 0) ∧
      s.des.causeView.getLsbD 3 = s.des.rxFull ∧ s.des.causeView.extractLsb' 4 4 = 0)

/-- R260: the reset event, in any state: every register takes its reset value and the cells of both memories
are not written; nothing that crossed an interface is erased (R262). Beyond the rules are the model's choices
that the cells keep what they hold (log 12), that rdata is left (log 8), that the inbound history is kept
(log 9), and the schedule (log 1). -/
def Obligations.ResetEventEffect : Prop :=
  ∀ s : State, exec .reset s = .next { s with
    ser := { txCmd := 0x00, txLen := 0, txOvf := false, txState := .idle, txIdx := 0, txCk := 0x00
             txDone := false, txp := s.ser.txp }
    des := { rxState := .idle, rxCnt := 0, rxCk := 0x00, rxRes := .none, rxCause := .none, ckOk := false
             lenOk := false, rxFull := false, recSel := 0, rxb := s.des.rxb }
    common := { ctrl := 0, errSeq := false, errIdx := false, errIllop := false } }

/-- R213, R263: SRST has the effect of reset and returns 0x00. -/
def Obligations.SrstIsResetReturningZero : Prop :=
  ∀ s : State, decode Config.device (.host 0xF000) = .ok .srst ∧
    ∃ t, exec .reset s = .next t ∧ exec .srst s = .next { t with rdata := 0x00 }

/-- R270: SRST or reset in mid-frame puts no byte on the line, leaves SER idle with `tx_done` 0, and no
EMIT is enabled after it. -/
def Obligations.ResetAbandonsFrame : Prop :=
  ∀ (s t : State) (i : Instr), (i = .srst ∨ i = .reset) → exec i s = .next t →
    t.lineOut = s.lineOut ∧ t.ser.txState = .idle ∧ t.ser.txDone = false ∧
    exec .emit t = .refused .emitNotEnabled

/-! ### The serializer -/

/-- R134. -/
def Obligations.TxclrDiscardsParameters : Prop :=
  ∀ s : State, decode Config.device (.host 0x1000) = .ok .txclr ∧
    (s.ser.txState = .busy → exec .txclr s = .next (s.raise .seqError)) ∧
    (s.ser.txState = .idle → exec .txclr s = .next { s with
      ser := { s.ser with txLen := 0, txOvf := false }, rdata := 0x00 })

/-- R135. -/
def Obligations.TxcmdSetsCommandCode : Prop :=
  ∀ (s : State) (d : Byte), decode Config.device (.host (0x2000#16 ||| d.setWidth 16)) = .ok (.txcmd d) ∧
    (s.ser.txState = .busy → exec (.txcmd d) s = .next (s.raise .seqError)) ∧
    (s.ser.txState = .idle → exec (.txcmd d) s = .next { s with
      ser := { s.ser with txCmd := d }, rdata := 0x00 })

/-- R136: the 256th push is discarded; SeqError is tested first. -/
def Obligations.TxpushAppendsParameter : Prop :=
  ∀ (s : State) (d : Byte), decode Config.device (.host (0x3000#16 ||| d.setWidth 16)) = .ok (.txpush d) ∧
    (s.ser.txState = .busy → exec (.txpush d) s = .next (s.raise .seqError)) ∧
    (s.ser.txState = .idle → s.ser.txLen.toNat = 255 → exec (.txpush d) s = .next (s.raise .txOverflow)) ∧
    (s.ser.txState = .idle → s.ser.txLen.toNat ≠ 255 → ∃ t, exec (.txpush d) s = .next t ∧
      t = { s with
        ser := { s.ser with
          txp := s.ser.txp.store s.ser.txLen.toNat d, txLen := s.ser.txLen + 1 }
        rdata := 0x00 } ∧
      t.ser.txLen.toNat = s.ser.txLen.toNat + 1 ∧
      (∀ p, s.ser.Loaded p → t.ser.Loaded (p ++ [d])))

/-- R137: refused while a frame is being sent and after an over-long load. -/
def Obligations.TxgoStartsFrame : Prop :=
  ∀ s : State, decode Config.device (.host 0x4000) = .ok .txgo ∧
    (s.ser.txState = .busy → exec .txgo s = .next (s.raise .seqError)) ∧
    (s.ser.txState = .idle → s.ser.txOvf = true → exec .txgo s = .next (s.raise .seqError)) ∧
    (s.ser.txState = .idle → s.ser.txOvf = false → exec .txgo s = .next { s with
      ser := { s.ser with txState := .busy, txIdx := 0, txDone := false }, rdata := 0x00 })

/-- R138: the byte and the accumulator at every frame position, and the position after the step. Where EMIT is
not enabled is UnscheduledStepIsSersOrNone's. That EMIT leaves rdata is the model's choice (log 8). -/
def Obligations.EmitSendsNextByte : Prop :=
  ∀ (s : State) (p : List Byte),
    s.ser.txState = .busy → s.ser.Loaded p → s.ser.txIdx.toNat ≤ 4 + s.ser.txLen.toNat →
      ∃ (b acc : Byte),
        (s.ser.txIdx.toNat = 4 + s.ser.txLen.toNat → exec .emit s = .next { s with
          ser := { s.ser with txState := .idle, txDone := true, txIdx := 0, txCk := acc }
          lineOut := s.lineOut ++ [b] }) ∧
        (s.ser.txIdx.toNat ≠ 4 + s.ser.txLen.toNat → exec .emit s = .next { s with
          ser := { s.ser with txIdx := s.ser.txIdx + 1, txCk := acc }
          lineOut := s.lineOut ++ [b] }) ∧
        (s.ser.txIdx = 0 → b = Config.device.syncByte ∧ acc = Config.device.ckInit) ∧
        (s.ser.txIdx = 1 → b = Config.device.versionByte) ∧
        (s.ser.txIdx = 2 → b = s.ser.txCmd) ∧
        (s.ser.txIdx = 3 → b = s.ser.txLen) ∧
        (4 ≤ s.ser.txIdx.toNat → s.ser.txIdx.toNat < 4 + s.ser.txLen.toNat →
          p[s.ser.txIdx.toNat - 4]? = some b) ∧
        (1 ≤ s.ser.txIdx.toNat → s.ser.txIdx.toNat < 4 + s.ser.txLen.toNat →
          acc = Config.device.ckStep s.ser.txCk b) ∧
        (s.ser.txIdx.toNat = 4 + s.ser.txLen.toNat → b = Config.device.ckFinal s.ser.txCk ∧ acc = s.ser.txCk)

/-- R139: whatever host ops (but SRST) and RXBYTE steps are interleaved, the `5 + N` EMITs after an accepted
TXGO send exactly `Encode(c, p)`, in order; on the way the position counts the EMITs and the accumulator
holds the fold. -/
def Obligations.SerializerSendsEncode : Prop :=
  ∀ (s : State) (p F : List Byte) (is : List Instr), Inv s → s.ser.txState = .idle → s.ser.txOvf = false →
    s.ser.Loaded p → LevelF.encode Config.device s.ser.txCmd p = some F →
    (∀ i ∈ is, i = .emit ∨ besideSending i = true) → emitCount is = 4 + p.length →
    (∀ js ks, is = js ++ ks → ∃ u, execAll (.txgo :: js) s = .next u ∧ u.ser.txState = .busy ∧
      u.ser.txIdx.toNat = emitCount js ∧ u.lineOut = s.lineOut ++ F.take (emitCount js) ∧
      (1 ≤ emitCount js → u.ser.txCk = LevelF.ckFold Config.device
        (LevelF.slice F 1 (min (emitCount js) (4 + p.length))))) ∧
    ∃ t, execAll (.txgo :: (is ++ [.emit])) s = .next t ∧ t.lineOut = s.lineOut ++ F ∧
      t.ser.txState = .idle ∧ t.ser.txDone = true ∧ t.ser.txIdx = 0 ∧ t.ser.txCmd = s.ser.txCmd ∧
      t.ser.txLen = s.ser.txLen ∧ t.ser.txp = s.ser.txp

/-- R46 I10, R141: while a frame is being sent nothing but SRST and reset changes the loaded command. -/
def Obligations.LoadedCommandKeptWhileBusy : Prop :=
  ∀ (s t : State) (i : Instr), s.ser.txState = .busy → i ≠ .srst → i ≠ .reset → exec i s = .next t →
    t.ser.txCmd = s.ser.txCmd ∧ t.ser.txLen = s.ser.txLen ∧ t.ser.txOvf = s.ser.txOvf ∧
    t.ser.txp = s.ser.txp

/-- R274: an over-long load refuses every TXGO, and only TXCLR (alone or inside ENCODE), SRST and reset end
that. -/
def Obligations.OverflowPoisonsUntilTxclr : Prop :=
  ∀ (s : State), s.ser.txOvf = true →
    exec .txgo s = .next (s.raise .seqError) ∧
    (∀ (t : State) (i : Instr), i ≠ .txclr → i ≠ .srst → i ≠ .reset → (∀ c p, i ≠ .cmdFrame c p) →
      exec i s = .next t → t.ser.txOvf = true)

/-- R45, R262: the outbound stream only grows; EMIT appends one byte, a command frame burst several, every
other step none. -/
def Obligations.LineOutOnlyGrows : Prop :=
  ∀ (s t : State) (i : Instr), exec i s = .next t → ∃ bs, t.lineOut = s.lineOut ++ bs ∧
    (i = .emit → bs.length = 1) ∧ (i ≠ .emit → (∀ c p, i ≠ .cmdFrame c p) → bs = [])

/-! ### The deserializer -/

/-- R160. -/
def Obligations.RxarmOpensWindow : Prop :=
  ∀ s : State, decode Config.device (.host 0x5000) = .ok .rxarm ∧
    exec .rxarm s = .next { s with
      des := { s.des with
        rxState := .recv, rxCnt := 0, rxCk := Config.device.ckInit, rxRes := .none, rxCause := .none
        ckOk := false, lenOk := false, rxFull := false, recSel := 0 }
      rdata := 0x00 }

/-- R161: outside a window the byte is dropped; inside it is stored, the byte before it is absorbed from
byte number 2 on, and the byte that fills RXB closes the window in the same step. The inbound history with
stored or dropped is R45's record (log 9); that RXBYTE leaves rdata is the model's choice (log 8). -/
def Obligations.RxbyteStoresInOpenWindow : Prop :=
  ∀ (s : State) (x : Byte) (b : List Byte),
    (s.des.rxState ≠ .recv → exec (.rxbyte x) s = .next { s with
      lineIn := s.lineIn ++ [{ byte := x, stored := false }] }) ∧
    (s.des.rxState = .recv → s.des.Window b → b.length < Config.device.rxMax →
      ∃ (acc : Byte) (r : Des), r = { s.des with
          rxb := s.des.rxb.store s.des.rxCnt.toNat x, rxCk := acc, rxCnt := s.des.rxCnt + 1 } ∧
        r.Window (b ++ [x]) ∧
        (b.length < 2 → acc = s.des.rxCk) ∧
        (2 ≤ b.length → ∃ y, b.getLast? = some y ∧ acc = Config.device.ckStep s.des.rxCk y) ∧
        (b.length + 1 ≠ Config.device.rxMax → exec (.rxbyte x) s = .next { s with
          des := r, lineIn := s.lineIn ++ [{ byte := x, stored := true }] }) ∧
        (b.length + 1 = Config.device.rxMax → ∃ r',
          ({ r with rxFull := true } : Des).close Config.device s.common (b.length + 1) = .ok r' ∧
          exec (.rxbyte x) s = .next { s with
            des := r', lineIn := s.lineIn ++ [{ byte := x, stored := true }] }))

/-- R162; an empty window closes MALFORMED with cause SHORT and CAUSE.RXEMPTY set (R170). -/
def Obligations.RxendClosesOpenWindow : Prop :=
  ∀ (s : State) (b : List Byte), decode Config.device (.host 0x6000) = .ok .rxend ∧
    (s.des.rxState ≠ .recv → exec .rxend s = .next { s with rdata := 0x00 }) ∧
    (s.des.rxState = .recv → s.des.Window b → ∃ r',
      s.des.close Config.device s.common b.length = .ok r' ∧
      exec .rxend s = .next { s with des := r', rdata := 0x00 }) ∧
    (s.des.rxState = .recv → s.des.rxCnt = 0 → ∃ t, exec .rxend s = .next t ∧
      t.des.rxRes = .malformed ∧ t.des.rxCause = .short ∧ t.des.causeView.getLsbD 2 = true)

/-- R163: `CloseWindow(n)`, in the rule's own cases, and that the flags are ChecksumOk and LengthOk of the
window. -/
def Obligations.CloseWindowDecides : Prop :=
  ∀ (r : Des) (c : Common) (b : List Byte), r.Window b → ∃ r',
    r.close Config.device c b.length = .ok r' ∧
    r' = { r with
      rxState := .done, lenOk := r'.lenOk, ckOk := r'.ckOk, rxRes := r'.rxRes, rxCause := r'.rxCause } ∧
    (b.length < 5 → r'.lenOk = false ∧ r'.ckOk = false ∧ r'.rxRes = .malformed ∧ r'.rxCause = .short) ∧
    (5 ≤ b.length →
      (r'.lenOk = true ↔ b[3]?.map BitVec.toNat = some (b.length - 5)) ∧
      (r'.ckOk = true ↔ b.getLast? = some (Config.device.ckFinal r.rxCk)) ∧
      (c.ctrl.getLsbD 1 = true → r'.lenOk = false → r'.rxRes = .malformed ∧ r'.rxCause = .length) ∧
      ((c.ctrl.getLsbD 1 = false ∨ r'.lenOk = true) → c.ctrl.getLsbD 0 = true → r'.ckOk = false →
        r'.rxRes = .malformed ∧ r'.rxCause = .checksum) ∧
      ((c.ctrl.getLsbD 1 = false ∨ r'.lenOk = true) → (c.ctrl.getLsbD 0 = false ∨ r'.ckOk = true) →
        r'.rxRes = .ok ∧ r'.rxCause = .none)) ∧
    (r.rxCk = LevelF.ckFold Config.device (LevelF.region b) →
      r'.ckOk = LevelF.checksumOk Config.device b ∧ r'.lenOk = LevelF.lengthOk b)

/-- R164. -/
def Obligations.RdcmdReturnsCommandCode : Prop :=
  ∀ (s : State) (b : List Byte), decode Config.device (.host 0x7000) = .ok .rdcmd ∧
    (¬(s.des.rxState = .done ∧ s.des.rxRes = .ok) → exec .rdcmd s = .next (s.raise .seqError)) ∧
    (s.des.rxState = .done → s.des.rxRes = .ok → s.des.Window b → 5 ≤ b.length →
      ∃ v, b[2]? = some v ∧ exec .rdcmd s = .next { s with rdata := v })

/-- R165. -/
def Obligations.RdplenReturnsPayloadLength : Prop :=
  ∀ s : State, decode Config.device (.host 0x8000) = .ok .rdplen ∧
    (¬(s.des.rxState = .done ∧ s.des.rxRes = .ok) → exec .rdplen s = .next (s.raise .seqError)) ∧
    (s.des.rxState = .done → s.des.rxRes = .ok → 5 ≤ s.des.rxCnt.toNat → s.des.rxCnt.toNat ≤ 260 →
      ∃ v : Byte, v.toNat = s.des.rxCnt.toNat - 5 ∧ exec .rdplen s = .next { s with rdata := v })

/-- R166: SeqError first, then IdxError, else the payload byte. -/
def Obligations.RdpayReturnsPayloadByte : Prop :=
  ∀ (s : State) (d : Byte) (b : List Byte),
    decode Config.device (.host (0x9000#16 ||| d.setWidth 16)) = .ok (.rdpay d) ∧
    (¬(s.des.rxState = .done ∧ s.des.rxRes = .ok) → exec (.rdpay d) s = .next (s.raise .seqError)) ∧
    (s.des.rxState = .done → s.des.rxRes = .ok → s.des.rxCnt.toNat - 5 ≤ d.toNat →
      exec (.rdpay d) s = .next (s.raise .idxError)) ∧
    (s.des.rxState = .done → s.des.rxRes = .ok → d.toNat < s.des.rxCnt.toNat - 5 → s.des.Window b →
      ∃ v, b[4 + d.toNat]? = some v ∧ exec (.rdpay d) s = .next { s with rdata := v })

/-- R169: whatever is interleaved, a window reports `Decode`, `LengthOk` and `ChecksumOk` of the first RX_MAX
bytes delivered after RXARM, under the CTRL of the close; and the reads return what `Decode` gives. -/
def Obligations.DeserializerReportsDecode : Prop :=
  ∀ (s t : State) (is : List Instr) (B : List Byte), Inv s →
    (∀ i ∈ is, besideWindow i = true ∨ (deliveredByte i).isSome = true) →
    B = (deliveredBytes is).take Config.device.rxMax →
    execAll (.rxarm :: (is ++ [.rxend])) s = .next t →
    t.des.rxState = .done ∧ t.des.Window B ∧ t.des.lenOk = LevelF.lengthOk B ∧
    t.des.ckOk = LevelF.checksumOk Config.device B ∧ t.common.ctrl = s.common.ctrl ∧
    (LevelF.decode B = .error .malformedFrame → t.des.rxRes = .malformed ∧ t.des.rxCause = .short) ∧
    (∀ c P, LevelF.decode B = .ok (c, P) →
      (s.common.ctrl.getLsbD 1 = true → LevelF.lengthOk B = false →
        t.des.rxRes = .malformed ∧ t.des.rxCause = .length) ∧
      ((s.common.ctrl.getLsbD 1 = false ∨ LevelF.lengthOk B = true) → s.common.ctrl.getLsbD 0 = true →
        LevelF.checksumOk Config.device B = false → t.des.rxRes = .malformed ∧ t.des.rxCause = .checksum) ∧
      ((s.common.ctrl.getLsbD 1 = false ∨ LevelF.lengthOk B = true) →
        (s.common.ctrl.getLsbD 0 = false ∨ LevelF.checksumOk Config.device B = true) →
        t.des.rxRes = .ok ∧ t.des.rxCause = .none ∧
        exec .rdcmd t = .next { t with rdata := c } ∧
        (∃ v : Byte, v.toNat = P.length ∧ exec .rdplen t = .next { t with rdata := v }) ∧
        (∀ d : Byte, d.toNat < P.length →
          ∃ v, P[d.toNat]? = some v ∧ exec (.rdpay d) t = .next { t with rdata := v })))

/-- R33 to R35, R38: but for RXARM, SRST and reset, a step that moves DES to another state closes an open
window, and a step that does not leaves the result, its cause and the two flags; with no window open, or by
an instruction that neither delivers a byte nor closes a window, the state and the count stay too. CTRL
changes only by WRREG 0, SRST and reset, so a later WRREG 0 re-evaluates nothing. -/
def Obligations.ResultChangesOnlyAtClose : Prop :=
  ∀ (s t : State) (i : Instr), exec i s = .next t →
    (i ≠ .srst → i ≠ .reset → (∀ d, i ≠ .wrreg 0 d) → t.common.ctrl = s.common.ctrl) ∧
    (i ≠ .rxarm → i ≠ .srst → i ≠ .reset →
      (t.des.rxState = s.des.rxState → t.des.rxRes = s.des.rxRes ∧ t.des.rxCause = s.des.rxCause ∧
        t.des.ckOk = s.des.ckOk ∧ t.des.lenOk = s.des.lenOk) ∧
      (t.des.rxState ≠ s.des.rxState → s.des.rxState = .recv ∧ t.des.rxState = .done) ∧
      ((s.des.rxState ≠ .recv ∨ (i ≠ .rxend ∧ (∀ b, i ≠ .rxbyte b) ∧
          (∀ a b c d e f, i ≠ .rspFrame a b c d e f) ∧ (∀ a b c, i ≠ .discRecord a b c))) →
        t.des.rxState = s.des.rxState ∧ t.des.rxCnt = s.des.rxCnt))

/-! ### Discovery records -/

/-- R195. -/
def Obligations.RecselSelectsRecord : Prop :=
  ∀ (s : State) (d : Byte), decode Config.device (.host (0xA000#16 ||| d.setWidth 16)) = .ok (.recsel d) ∧
    exec (.recsel d) s = .next { s with des := { s.des with recSel := d }, rdata := 0x00 }

/-- R196: SeqError first, then IdxError, else the record's byte, which is also a payload byte. -/
def Obligations.RdrecReturnsRecordByte : Prop :=
  ∀ (s : State) (d : Byte) (b : List Byte),
    decode Config.device (.host (0xB000#16 ||| d.setWidth 16)) = .ok (.rdrec d) ∧
    (¬(s.des.rxState = .done ∧ s.des.rxRes = .ok) → exec (.rdrec d) s = .next (s.raise .seqError)) ∧
    (s.des.rxState = .done → s.des.rxRes = .ok →
      ((s.des.rxCnt.toNat - 5) / 10 ≤ s.des.recSel.toNat ∨ 10 ≤ d.toNat) →
      exec (.rdrec d) s = .next (s.raise .idxError)) ∧
    (s.des.rxState = .done → s.des.rxRes = .ok → s.des.recSel.toNat < (s.des.rxCnt.toNat - 5) / 10 →
      d.toNat < 10 → s.des.Window b → ∃ v, b[4 + 10 * s.des.recSel.toNat + d.toNat]? = some v ∧
        4 + 10 * s.des.recSel.toNat + d.toNat < b.length - 1 ∧
        exec (.rdrec d) s = .next { s with rdata := v } ∧
        (b.length ≤ 260 → exec (.rdpay (BitVec.ofNat 8 (10 * s.des.recSel.toNat + d.toNat))) s =
          .next { s with rdata := v }))

/-- R197. -/
def Obligations.RdnrecReturnsRecordCount : Prop :=
  ∀ s : State, decode Config.device (.host 0xC000) = .ok .rdnrec ∧
    (¬(s.des.rxState = .done ∧ s.des.rxRes = .ok) → exec .rdnrec s = .next (s.raise .seqError)) ∧
    (s.des.rxState = .done → s.des.rxRes = .ok → s.des.rxCnt.toNat ≤ 260 →
      ∃ v : Byte, v.toNat = (s.des.rxCnt.toNat - 5) / 10 ∧ v.toNat ≤ 25 ∧
        exec .rdnrec s = .next { s with rdata := v })

/-- R198: the record view computes `DecodeDiscovery` of the payload of a window of at most 260 bytes (R62). -/
def Obligations.RecordViewIsDecodeDiscovery : Prop :=
  ∀ (s : State) (B P : List Byte) (c : Byte), s.des.rxState = .done → s.des.rxRes = .ok →
    s.des.Window B → B.length ≤ 260 → LevelF.decode B = .ok (c, P) →
    (∃ v : Byte, v.toNat = (LevelF.decodeDiscovery P).length ∧ exec .rdnrec s = .next { s with rdata := v }) ∧
    (∀ (r : Byte) (rec : LevelF.DiscRecord), (LevelF.decodeDiscovery P)[r.toNat]? = some rec →
      ∃ u, exec (.recsel r) s = .next u ∧
        (∀ k : Byte, k.toNat < 8 →
          ∃ v, rec.long[k.toNat]? = some v ∧ exec (.rdrec k) u = .next { u with rdata := v }) ∧
        (∀ k : Byte, 8 ≤ k.toNat → k.toNat < 10 →
          ∃ v, rec.short[k.toNat - 8]? = some v ∧ exec (.rdrec k) u = .next { u with rdata := v }))

/-! ### Level F -/

/-- R86, R88 and R132: the layout of the frame `Encode` gives, and that it gives none above 255
parameters. -/
def Obligations.EncodeLaysOutFrame : Prop :=
  ∀ (cfg : Config) (c : Byte) (p : List Byte),
    (p.length ≤ 255 → ∃ F, LevelF.encode cfg c p = some F ∧ F.length = 5 + p.length ∧
      F[0]? = some cfg.syncByte ∧ F[1]? = some cfg.versionByte ∧ F[2]? = some c ∧
      F[3]?.map BitVec.toNat = some (F.length - 5) ∧ (∀ i, i < p.length → F[4 + i]? = p[i]?) ∧
      F[4 + p.length]? = some (cfg.ckFinal ((LevelF.slice F 1 (4 + p.length)).foldl cfg.ckStep cfg.ckInit))) ∧
    (255 < p.length → LevelF.encode cfg c p = none)

/-- R159 at level F: `Decode` undoes `Encode`, and the frame passes both optional checks. -/
def Obligations.DecodeUndoesEncode : Prop :=
  ∀ (cfg : Config) (c : Byte) (p F : List Byte), LevelF.encode cfg c p = some F →
    LevelF.decode F = .ok (c, p) ∧ LevelF.checksumOk cfg F = true ∧ LevelF.lengthOk F = true

/-- R190: the record count, and both fields of every record byte by byte. -/
def Obligations.DiscoveryRecordsOfPayload : Prop :=
  ∀ P : List Byte, (LevelF.decodeDiscovery P).length = P.length / 10 ∧
    ∀ r, r < P.length / 10 → ∃ rec, (LevelF.decodeDiscovery P)[r]? = some rec ∧
      rec.long.length = 8 ∧ (∀ k, k < 8 → rec.long[k]? = P[10 * r + k]?) ∧
      rec.short.length = 2 ∧ (∀ k, k < 2 → rec.short[k]? = P[10 * r + 8 + k]?)

/-- R193: the numeric short address, and the document's two examples. -/
def Obligations.ShortNumericSwapsBytes : Prop :=
  (∀ s0 s1 : Byte, (LevelF.shortNumeric s0 s1).toNat = s1.toNat * 256 + s0.toNat) ∧
    LevelF.shortNumeric 0x12 0x34 = 0x3412 ∧ LevelF.shortNumeric 0x00 0x01 = 0x0100

/-! ### Wire formats -/

/-- R86, R139: a command frame in T_IDLE puts exactly `Encode(c, p)` on the line and leaves SER idle with the
command loaded. That the table's row is one step, ENCODE and then DRAIN, is the model's choice (log 4). -/
def Obligations.CommandFrameSendsEncode : Prop :=
  ∀ (s : State) (c : Byte) (p F : List Byte), s.ser.txState = .idle →
    LevelF.encode Config.device c p = some F →
    exec (.cmdFrame c p) s = .next { s with
      ser := { s.ser with
        txCmd := c, txLen := BitVec.ofNat 8 p.length, txOvf := false, txState := .idle, txIdx := 0
        txDone := true, txp := s.ser.txp.storeAll 0 p
        txCk := LevelF.ckFold Config.device (LevelF.region F) }
      rdata := 0x00, lineOut := s.lineOut ++ F }

/-- A command frame begun while another is being sent: its load ops are refused (R134 to R137) and the frame
in flight is sent to its end (R103). The one-step form is the model's choice (log 4). -/
def Obligations.CommandFrameWhileBusyIsRefused : Prop :=
  ∀ (s : State) (c : Byte) (p q : List Byte), Inv s → s.ser.txState = .busy → s.ser.Loaded q →
    ∃ t, exec (.cmdFrame c p) s = .next t ∧
      t.lineOut = s.lineOut ++ (LevelF.commandFrame Config.device s.ser.txCmd q).drop s.ser.txIdx.toNat ∧
      t.common = { s.common with errSeq := true } ∧ t.rdata = 0x00 ∧ t.des = s.des ∧
      t.ser.txState = .idle ∧ t.ser.txDone = true ∧ t.ser.txIdx = 0 ∧ t.ser.txCmd = s.ser.txCmd ∧
      t.ser.txLen = s.ser.txLen ∧ t.ser.txp = s.ser.txp

/-- R161: the bytes of a response frame or a discovery record delivered outside a window are all dropped.
The one-step form is the model's choice (logs 5, 6), and so is that rdata is left (log 8); the inbound history
is R45's record (log 9). -/
def Obligations.WireBytesDroppedOutsideWindow : Prop :=
  ∀ (s : State), s.des.rxState ≠ .recv →
    (∀ sync version c len k (pl : List Byte), exec (.rspFrame sync version c len pl k) s = .next { s with
      lineIn := s.lineIn ++ ([sync, version, c, len] ++ pl ++ [k]).map
        (fun x => { byte := x, stored := false }) }) ∧
    (∀ (la : List Byte) (s0 s1 : Byte), exec (.discRecord la s0 s1) s = .next { s with
      lineIn := s.lineIn ++ (la ++ [s0, s1]).map (fun x => { byte := x, stored := false }) })

/-- R161: the bytes of a response frame or a discovery record delivered in an open window are stored in order
until RXB is full; the window closes exactly when it fills, with the flags of the window (R163), and the
rest is dropped. The one-step form is the model's choice (logs 5, 6), and so is that rdata is left (log 8);
the inbound history is R45's record (log 9). -/
def Obligations.WireBytesEnterWindow : Prop :=
  ∀ (s : State) (b bs W : List Byte) (k : Nat) (i : Instr), Inv s → s.des.rxState = .recv → s.des.Window b →
    ((∃ sync version c len pl ck, i = .rspFrame sync version c len pl ck ∧
        bs = [sync, version, c, len] ++ pl ++ [ck]) ∨
      (∃ la s0 s1, i = .discRecord la s0 s1 ∧ bs = la ++ [s0, s1])) →
    W = (b ++ bs).take Config.device.rxMax → k = Config.device.rxMax - b.length →
    ∃ t, exec i s = .next t ∧ t = { s with
        des := t.des
        lineIn := s.lineIn ++ (bs.take k).map (fun x => { byte := x, stored := true }) ++
          (bs.drop k).map (fun x => { byte := x, stored := false }) } ∧
      t.des.Window W ∧ t.des.rxCk = LevelF.ckFold Config.device (LevelF.region W) ∧
      t.des.recSel = s.des.recSel ∧
      (b.length + bs.length < Config.device.rxMax → t.des = { s.des with
        rxb := t.des.rxb, rxCk := t.des.rxCk, rxCnt := t.des.rxCnt }) ∧
      (Config.device.rxMax ≤ b.length + bs.length → t.des.rxState = .done ∧ t.des.rxFull = true ∧
        t.des.lenOk = LevelF.lengthOk W ∧ t.des.ckOk = LevelF.checksumOk Config.device W)

/-- R90, R159: a response frame alone in a fresh window that holds it, closed with CTRL clear, decodes to its
command byte and payload, whatever its sync, version, length and checksum bytes are. The one-step form of
the frame is the model's choice (log 5). -/
def Obligations.ResponseFrameIsDecoded : Prop :=
  ∀ (s : State) (sync version c len k : Byte) (pl : List Byte), s.common.ctrl = 0 →
    5 + pl.length ≤ Config.device.rxMax →
    ∃ t, execAll [.rxarm, .rspFrame sync version c len pl k, .rxend] s = .next t ∧
      t.des.rxState = .done ∧ t.des.rxRes = .ok ∧ exec .rdcmd t = .next { t with rdata := c } ∧
      (∃ v : Byte, v.toNat = pl.length ∧ exec .rdplen t = .next { t with rdata := v }) ∧
      (∀ d : Byte, d.toNat < pl.length →
        ∃ v, pl[d.toNat]? = some v ∧ exec (.rdpay d) t = .next { t with rdata := v })

/-! ### Frames and whole-machine rules -/

/-- R69, R234: NOP and the reads change nothing but `rdata` and the error bits their rules name. -/
def Obligations.FrameOfReads : Prop :=
  ∀ (s t : State) (i : Instr), exec i s = .next t →
    ((i = .nop ∨ ∃ a, i = .rdreg a) ∨ (i = .rdcmd ∨ i = .rdplen ∨ i = .rdnrec) ∨
      (∃ d, i = .rdpay d ∨ i = .rdrec d)) →
    t.ser = s.ser ∧ t.des = s.des ∧ t.lineOut = s.lineOut ∧ t.lineIn = s.lineIn ∧
    t.schedule = s.schedule ∧ t.common.ctrl = s.common.ctrl ∧
    (∀ a, t.ser.txp.cell a = s.ser.txp.cell a) ∧ (∀ a, t.des.rxb.cell a = s.des.rxb.cell a) ∧
    (s.common.errSeq = true → t.common.errSeq = true) ∧
    (s.common.errIdx = true → t.common.errIdx = true) ∧
    (s.common.errIllop = true → t.common.errIllop = true) ∧
    ((∀ a, i ≠ .rdreg a) → t.common.errIllop = s.common.errIllop) ∧
    ((∀ d, i ≠ .rdpay d ∧ i ≠ .rdrec d) → t.common.errIdx = s.common.errIdx) ∧
    ((i = .nop ∨ ∃ a, i = .rdreg a) → t.common.errSeq = s.common.errSeq)

/-- R134 to R138: what the load ops and EMIT leave unchanged; TXPUSH stores at `tx_len` and nowhere else.
That EMIT leaves rdata is log 8. -/
def Obligations.FrameOfSerializerSteps : Prop :=
  ∀ (s t : State) (i : Instr), exec i s = .next t →
    (i = .emit ∨ i = .txclr ∨ i = .txgo ∨ ∃ d, i = .txcmd d ∨ i = .txpush d) →
    t.des = s.des ∧ (i ≠ .emit → t.lineOut = s.lineOut) ∧ t.lineIn = s.lineIn ∧
    t.schedule = s.schedule ∧ t.common.ctrl = s.common.ctrl ∧ t.common.errIdx = s.common.errIdx ∧
    t.common.errIllop = s.common.errIllop ∧ (s.common.errSeq = true → t.common.errSeq = true) ∧
    (i ≠ .emit → t.ser.txCk = s.ser.txCk) ∧
    (i = .emit → t.common = s.common ∧ t.rdata = s.rdata) ∧
    ((∀ d, i ≠ .txcmd d) → t.ser.txCmd = s.ser.txCmd) ∧
    (i ≠ .txclr → (∀ d, i ≠ .txpush d) → t.ser.txLen = s.ser.txLen ∧ t.ser.txOvf = s.ser.txOvf) ∧
    (i ≠ .txgo → i ≠ .emit → t.ser.txState = s.ser.txState ∧ t.ser.txIdx = s.ser.txIdx ∧
      t.ser.txDone = s.ser.txDone) ∧
    (∀ a, (∃ d, i = .txpush d) → a ≠ s.ser.storeAddr → t.ser.txp.cell a = s.ser.txp.cell a) ∧
    (∀ a, (∀ d, i ≠ .txpush d) → t.ser.txp.cell a = s.ser.txp.cell a) ∧
    (∀ a, t.des.rxb.cell a = s.des.rxb.cell a)

/-- R160 to R162, R195: what the steps of DES leave unchanged; RXBYTE stores at `rx_cnt` and nowhere
else. That RXBYTE leaves rdata is log 8. -/
def Obligations.FrameOfReceiveSteps : Prop :=
  ∀ (s t : State) (i : Instr), exec i s = .next t →
    (i = .rxarm ∨ i = .rxend ∨ (∃ b, i = .rxbyte b) ∨ ∃ d, i = .recsel d) →
    t.ser = s.ser ∧ t.common = s.common ∧ t.lineOut = s.lineOut ∧ t.schedule = s.schedule ∧
    ((∀ b, i ≠ .rxbyte b) → t.lineIn = s.lineIn) ∧ ((∃ b, i = .rxbyte b) → t.rdata = s.rdata) ∧
    (i ≠ .rxarm → (∀ d, i ≠ .recsel d) → t.des.recSel = s.des.recSel) ∧
    ((i = .rxend ∨ ∃ d, i = .recsel d) →
      t.des.rxCnt = s.des.rxCnt ∧ t.des.rxCk = s.des.rxCk ∧ t.des.rxFull = s.des.rxFull) ∧
    ((∃ d, i = .recsel d) → t.des = { s.des with recSel := t.des.recSel }) ∧
    (∀ a, (∃ b, i = .rxbyte b) → a ≠ s.des.storeAddr → t.des.rxb.cell a = s.des.rxb.cell a) ∧
    (∀ a, (∀ b, i ≠ .rxbyte b) → t.des.rxb.cell a = s.des.rxb.cell a) ∧
    (∀ a, t.ser.txp.cell a = s.ser.txp.cell a)

/-- R211, R213, R260: what WRREG, SRST and reset leave unchanged; line_out is not erased (R262). Of SRST and
reset the rules say only that the cells are not written, and R260 calls their contents unspecified. Beyond
the rules are the model's choices that every cell keeps what it holds (log 12), that reset leaves rdata
(log 8), that the inbound history is kept (log 9), and the schedule (log 1). -/
def Obligations.FrameOfSystemWrites : Prop :=
  ∀ (s t : State) (i : Instr), exec i s = .next t →
    ((∃ a d, i = .wrreg a d) ∨ i = .srst ∨ i = .reset) →
    t.lineOut = s.lineOut ∧ t.lineIn = s.lineIn ∧ t.schedule = s.schedule ∧
    (∀ a, t.ser.txp.cell a = s.ser.txp.cell a) ∧ (∀ a, t.des.rxb.cell a = s.des.rxb.cell a) ∧
    (i = .reset → t.rdata = s.rdata) ∧
    ((∃ a d, i = .wrreg a d) → t.ser = s.ser ∧ t.des = s.des) ∧
    ((∃ a d, a ≠ 0 ∧ i = .wrreg a d) → t.common.ctrl = s.common.ctrl) ∧
    ((∃ d, i = .wrreg 0 d) → t.common = { s.common with ctrl := t.common.ctrl }) ∧
    ((∃ a d, a ≠ 2 ∧ i = .wrreg a d) →
      t.common.errSeq = s.common.errSeq ∧ t.common.errIdx = s.common.errIdx)

/-- What a burst of wire bytes leaves unchanged: a command frame stores its parameters at TXP 0, 1, .. and a
response frame or record its bytes at RXB `rx_cnt`, `rx_cnt + 1`, .. ; every other cell reads as before.
The one-step forms are the model's choice (logs 4 to 6), and that a frame or record leaves rdata is log 8. -/
def Obligations.FrameOfWireFormats : Prop :=
  ∀ (s t : State) (i : Instr), exec i s = .next t →
    (∀ c p, i = .cmdFrame c p →
      t.des = s.des ∧ t.lineIn = s.lineIn ∧ t.schedule = s.schedule ∧ t.common.ctrl = s.common.ctrl ∧
      t.common.errIdx = s.common.errIdx ∧ t.common.errIllop = s.common.errIllop ∧
      (∀ a, p.length ≤ a → t.ser.txp.cell a = s.ser.txp.cell a) ∧
      (∀ a, t.des.rxb.cell a = s.des.rxb.cell a)) ∧
    (∀ bs, ((∃ sync version c len pl k, i = .rspFrame sync version c len pl k ∧
          bs = [sync, version, c, len] ++ pl ++ [k]) ∨
        (∃ la s0 s1, i = .discRecord la s0 s1 ∧ bs = la ++ [s0, s1])) →
      t.ser = s.ser ∧ t.common = s.common ∧ t.rdata = s.rdata ∧ t.lineOut = s.lineOut ∧
      t.schedule = s.schedule ∧ t.des.recSel = s.des.recSel ∧
      (∀ a, a < s.des.storeAddr ∨ s.des.storeAddr + bs.length ≤ a →
        t.des.rxb.cell a = s.des.rxb.cell a) ∧
      (∀ a, t.ser.txp.cell a = s.ser.txp.cell a))

/-- R69: a host op other than TXPUSH and TXGO, issued twice in a row, leaves the state of issuing it once,
`rdata` included. -/
def Obligations.RepeatedOpLeavesSameState : Prop :=
  ∀ (s t : State) (i : Instr), repeatable i = true → exec i s = .next t → exec i t = .next t

/-- R235: a host op that sets an error bit has no other effect and returns 0x00. -/
def Obligations.ErrorsArePrecise : Prop :=
  ∀ (s t : State) (i : Instr), isHostOp i = true → exec i s = .next t →
    ((s.ser.txOvf = false ∧ t.ser.txOvf = true → t = s.raise .txOverflow) ∧
      (s.common.errSeq = false ∧ t.common.errSeq = true → t = s.raise .seqError) ∧
      (s.common.errIdx = false ∧ t.common.errIdx = true → t = s.raise .idxError) ∧
      (s.common.errIllop = false ∧ t.common.errIllop = true → t = s.raise .illegalOp))

/-- R118, R141, R168: SER and DES share no data. What a step does to SER and to the outbound stream depends
on SER alone; what it does to DES depends on DES and CTRL alone. -/
def Obligations.SerAndDesAreIndependent : Prop :=
  ∀ (s₁ s₂ t₁ t₂ : State) (i : Instr), exec i s₁ = .next t₁ → exec i s₂ = .next t₂ →
    (s₁.ser = s₂.ser → t₁.ser = t₂.ser ∧
      ∃ bs, t₁.lineOut = s₁.lineOut ++ bs ∧ t₂.lineOut = s₂.lineOut ++ bs) ∧
    (s₁.des = s₂.des → s₁.common.ctrl = s₂.common.ctrl → t₁.des = t₂.des)
end

