-- ==== Sys2Proof/Laws/LevelF.lean ====
section
/-! SUPPORT. The layout of a command frame byte by byte (30_encoding.md R86 to R89), and the fold of the
checksum one byte at a time (40_checksum_accumulator.md R122). -/

namespace Sys2Proof.LevelF

@[simp] theorem ckFold_nil (cfg : Config) : ckFold cfg [] = cfg.ckInit := rfl

/-- R122: absorbing one more byte. -/
theorem ckFold_append (cfg : Config) (bs : List Byte) (b : Byte) :
    ckFold cfg (bs ++ [b]) = cfg.ckStep (ckFold cfg bs) b := by simp [ckFold]

/-- A slice from 1 grows by the next byte. -/
theorem slice_succ {s : List Byte} {k : Nat} (h1 : 1 ≤ k) (hk : k < s.length) :
    slice s 1 (k + 1) = slice s 1 k ++ [s[k]] := by
  unfold slice
  rw [List.take_add_one, List.getElem?_eq_getElem hk, List.drop_append_of_le_length (by simp; omega)]
  rfl

theorem slice_one_one (s : List Byte) : slice s 1 1 = [] := by
  unfold slice
  exact List.drop_eq_nil_of_le (by simp)

/-- The region of a window that has grown by a byte: nothing below 3 bytes, else the previous byte is
appended. -/
theorem region_append_short {b : List Byte} (x : Byte) (h : b.length < 2) : region (b ++ [x]) = region b := by
  unfold region slice
  rw [List.drop_eq_nil_of_le (by simp; omega), List.drop_eq_nil_of_le (by simp; omega)]

theorem region_append {b : List Byte} (x : Byte) (h : 2 ≤ b.length) :
    region (b ++ [x]) = region b ++ [b[b.length - 1]] := by
  unfold region
  have e : (b ++ [x]).length - 1 = (b.length - 1) + 1 := by simp; omega
  rw [e, slice_succ (by omega) (by simp)]
  congr 1
  · unfold slice; rw [List.take_append_of_le_length (by omega)]
  · rw [List.getElem_append_left (by omega)]

/-! ### The command frame -/

@[simp] theorem commandFrame_length (cfg : Config) (c : Byte) (p : List Byte) :
    (commandFrame cfg c p).length = 5 + p.length := by simp [commandFrame]; omega

theorem commandFrame_eq (cfg : Config) (c : Byte) (p : List Byte) :
    commandFrame cfg c p = cfg.syncByte :: cfg.versionByte :: c :: BitVec.ofNat 8 p.length ::
      (p ++ [ck cfg ([cfg.versionByte, c, BitVec.ofNat 8 p.length] ++ p)]) := rfl

theorem commandFrame_param (cfg : Config) (c : Byte) (p : List Byte) {i : Nat} (h4 : 4 ≤ i)
    (hi : i < 4 + p.length) :
    (commandFrame cfg c p)[i]? = p[i - 4]? := by
  obtain ⟨j, rfl⟩ := Nat.exists_eq_add_of_le h4
  have hj : j < p.length := by omega
  rw [commandFrame_eq, show 4 + j = j + 1 + 1 + 1 + 1 by omega]
  simp only [List.getElem?_cons_succ]
  rw [List.getElem?_append_left hj, show j + 1 + 1 + 1 + 1 - 4 = j by omega]

/-- R89: the region of a command frame is version, command code, length byte and parameters. -/
theorem commandFrame_region (cfg : Config) (c : Byte) (p : List Byte) :
    region (commandFrame cfg c p) = [cfg.versionByte, c, BitVec.ofNat 8 p.length] ++ p := by
  have e : (commandFrame cfg c p).length - 1 = 1 + (3 + p.length) := by simp; omega
  unfold region slice
  rw [e, commandFrame_eq, List.drop_take, Nat.add_sub_cancel_left]
  simp only [List.drop_one, List.tail_cons]
  rw [show 3 + p.length = p.length + 1 + 1 + 1 by omega]
  simp

theorem commandFrame_last (cfg : Config) (c : Byte) (p : List Byte) :
    (commandFrame cfg c p)[4 + p.length]? = some (ck cfg (region (commandFrame cfg c p))) := by
  rw [commandFrame_region, commandFrame_eq, show 4 + p.length = p.length + 1 + 1 + 1 + 1 by omega]
  simp

end Sys2Proof.LevelF
end

