-- ==== Sys2Proof/Laws/Decode.lean ====
section
/-! SUPPORT. The fields of an op word, and what the wire decoders answer. -/

namespace Sys2Proof

@[simp] theorem opField_opWord (op : BitVec 4) (a : RegNo) (d : Byte) : opField (opWord op a d) = op := by
  apply BitVec.eq_of_getLsbD_eq
  intro i hi
  simp only [opField, opWord, BitVec.getLsbD_extractLsb', BitVec.getLsbD_append]
  simp [hi, show ¬12 + i < 8 by omega, show ¬12 + i - 8 < 4 by omega, show 12 + i - 8 - 4 = i by omega]

@[simp] theorem aField_opWord (op : BitVec 4) (a : RegNo) (d : Byte) : aField (opWord op a d) = a := by
  apply BitVec.eq_of_getLsbD_eq
  intro i hi
  simp only [aField, opWord, BitVec.getLsbD_extractLsb', BitVec.getLsbD_append]
  simp [hi, show ¬8 + i < 8 by omega, show 8 + i - 8 = i by omega]

@[simp] theorem dField_opWord (op : BitVec 4) (a : RegNo) (d : Byte) : dField (opWord op a d) = d := by
  apply BitVec.eq_of_getLsbD_eq
  intro i hi
  simp only [dField, opWord, BitVec.getLsbD_extractLsb', BitVec.getLsbD_append]
  simp [hi]

/-- R96: a word is its three fields. -/
theorem opWord_fields (w : OpWord) : opWord (opField w) (aField w) (dField w) = w := by
  apply BitVec.eq_of_getLsbD_eq
  intro i hi
  simp only [opWord, opField, aField, dField, BitVec.getLsbD_append, BitVec.getLsbD_extractLsb']
  by_cases h8 : i < 8
  · simp [h8]
  · by_cases h4 : i - 8 < 4
    · simp [h8, h4, show 8 + (i - 8) = i by omega]
    · simp [h8, h4, show i - 8 - 4 < 4 by omega, show 12 + (i - 8 - 4) = i by omega]

/-- R96: the word whose bits 15:12, 11:8 and 7:0 are `op`, `a` and `d`. -/
theorem or_shift_eq_opWord (op : BitVec 4) (a : RegNo) (d : Byte) :
    (op.setWidth 16 <<< 12 ||| a.setWidth 16 <<< 8 ||| d.setWidth 16 : OpWord) = opWord op a d := by
  apply BitVec.eq_of_getLsbD_eq
  intro i hi
  simp only [opWord, BitVec.getLsbD_or, BitVec.getLsbD_append, BitVec.getLsbD_shiftLeft,
    BitVec.getLsbD_setWidth, hi, decide_true, Bool.true_and]
  by_cases h1 : i < 8
  · simp [h1, show i < 12 by omega]
  · rw [show d.getLsbD i = false from BitVec.getLsbD_of_ge _ _ (by omega)]
    by_cases h2 : i < 12
    · simp [h1, h2, show i - 8 < 4 by omega, show i - 8 < 16 by omega]
    · rw [show a.getLsbD (i - 8) = false from BitVec.getLsbD_of_ge _ _ (by omega)]
      simp [h1, h2, show i - 12 < 16 by omega, show ¬i - 8 < 4 by omega, show i - 8 - 4 = i - 12 by omega]

/-- R96: two words are equal iff their fields are. -/
theorem opWord_inj {op op' : BitVec 4} {a a' : RegNo} {d d' : Byte} :
    opWord op a d = opWord op' a' d' ↔ op = op' ∧ a = a' ∧ d = d' := by
  constructor
  · intro h
    exact ⟨by simpa using congrArg opField h, by simpa using congrArg aField h, by simpa using congrArg dField h⟩
  · rintro ⟨rfl, rfl, rfl⟩
    rfl

/-- R98: a mask acts field by field. -/
theorem opWord_and (op op' : BitVec 4) (a a' : RegNo) (d d' : Byte) :
    opWord op a d &&& opWord op' a' d' = opWord (op &&& op') (a &&& a') (d &&& d') := by
  apply BitVec.eq_of_getLsbD_eq
  intro i hi
  simp only [opWord, BitVec.getLsbD_and, BitVec.getLsbD_append]
  split_ifs <;> simp

/-- R98: decoding a word made of three fields looks at the fields. -/
theorem decodeHost_opWord (op : BitVec 4) (a : RegNo) (d : Byte) :
    decodeHost (opWord op a d) = decodeFields op a d := by simp [decodeHost]

/-- R86, R130: every command frame decodes to its command code and parameters. -/
theorem decodeCommandFrame_commandFrame (cfg : Config) (c : Byte) {p : List Byte} (hp : p.length ≤ txPMax) :
    decodeCommandFrame cfg (LevelF.commandFrame cfg c p) = some (.cmdFrame c p) := by
  have h : (BitVec.ofNat 8 p.length).toNat = p.length := by
    unfold txPMax at hp; simp; omega
  rw [LevelF.commandFrame_eq]
  simp [decodeCommandFrame, h]

end Sys2Proof
end

