-- ==== Sys2Proof/Laws/Memory.lean ====
section
/-! SUPPORT. The laws of the one-byte memories: read after write, and that a store keeps the canonical form
and the address range. -/

namespace Sys2Proof.Machine

@[simp] theorem Memory.cell_nil (a : Nat) : Memory.cell [] a = none := rfl

/-- A read of the stored address gives the stored byte. -/
@[simp] theorem Memory.cell_store_same (m : Memory) (a : Nat) (b : Byte) : (m.store a b).cell a = some b := by
  induction m with
  | nil => simp [Memory.store, Memory.cell]
  | cons c r ih =>
    obtain ⟨k, v⟩ := c
    simp only [Memory.store]
    split
    · simp [Memory.cell]
    · split
      · simp [Memory.cell]
      · rename_i h
        have hk : ¬k = a := fun e => h e.symm
        simp [Memory.cell, ih, hk]

/-- A store leaves every other address alone. -/
theorem Memory.cell_store_ne (m : Memory) {a a' : Nat} (b : Byte) (h : a' ≠ a) :
    (m.store a b).cell a' = m.cell a' := by
  induction m with
  | nil => simp [Memory.store, Memory.cell, h.symm]
  | cons c r ih =>
    obtain ⟨k, v⟩ := c
    simp only [Memory.store]
    split
    · simp [Memory.cell, h.symm]
    · split
      · rename_i e
        subst e
        simp [Memory.cell, h.symm]
      · simp [Memory.cell, ih]

theorem Memory.cell_store (m : Memory) (a a' : Nat) (b : Byte) :
    (m.store a b).cell a' = if a' = a then some b else m.cell a' := by
  split
  · rename_i h; subst h; simp
  · rename_i h; exact cell_store_ne m b h

/-- The addresses after a store are the old ones and the stored one. -/
theorem Memory.mem_store {m : Memory} {a : Nat} {b : Byte} {c : Host.Cell} (h : c ∈ m.store a b) :
    c = (a, b) ∨ c ∈ m := by
  induction m with
  | nil => simpa [Memory.store] using h
  | cons d r ih =>
    obtain ⟨k, v⟩ := d
    simp only [Memory.store] at h
    split at h
    · simpa using h
    · split at h
      · rcases List.mem_cons.mp h with h | h
        · exact .inl h
        · exact .inr (List.mem_cons_of_mem _ h)
      · rcases List.mem_cons.mp h with h | h
        · exact .inr (by simp [h])
        · rcases ih h with h | h
          · exact .inl h
          · exact .inr (List.mem_cons_of_mem _ h)

/-- A store keeps the canonical form. -/
theorem Memory.store_wf {m : Memory} (h : m.wf) (a : Nat) (b : Byte) : (m.store a b).wf := by
  induction m with
  | nil => simp [Memory.store, Memory.wf]
  | cons c r ih =>
    obtain ⟨k, v⟩ := c
    obtain ⟨hk, hr⟩ := List.pairwise_cons.mp h
    simp only [Memory.store]
    split
    · rename_i ha
      refine List.pairwise_cons.mpr ⟨fun d hd => ?_, h⟩
      rcases List.mem_cons.mp hd with e | hd
      · rw [e]; exact ha
      · exact Nat.lt_trans ha (hk d hd)
    · split
      · rename_i e
        subst e
        exact List.pairwise_cons.mpr ⟨hk, hr⟩
      · rename_i ha hne
        refine List.pairwise_cons.mpr ⟨fun d hd => ?_, ih hr⟩
        rcases Memory.mem_store hd with e | hd
        · rw [e]; simp only; omega
        · exact hk d hd

/-- A store below the depth keeps the address range. -/
theorem Memory.store_within {m : Memory} {depth a : Nat} (h : m.within depth) (ha : a < depth) (b : Byte) :
    (m.store a b).within depth := by
  intro c hc
  rcases Memory.mem_store hc with e | hc
  · rw [e]; exact ha
  · exact h c hc

theorem Memory.load_ok {sp : Space} {m : Memory} {a : Nat} {b : Byte} (h : m.cell a = some b) :
    m.load sp a = .ok b := by simp [Memory.load, h]

theorem Memory.storeIn_ok {sp : Space} {depth : Nat} {m : Memory} {a : Nat} (b : Byte) (h : a < depth) :
    m.storeIn sp depth a b = .ok (m.store a b) := by simp [Memory.storeIn, h]

/-- If a checked store succeeds, the address exists and the result is the store. -/
theorem Memory.storeIn_next {sp : Space} {depth : Nat} {m m' : Memory} {a : Nat} {b : Byte}
    (h : m.storeIn sp depth a b = .ok m') : a < depth ∧ m' = m.store a b := by
  unfold Memory.storeIn at h
  split at h
  · exact ⟨‹_›, by simpa using h.symm⟩
  · cases h

@[simp] theorem Memory.holds_nil (m : Memory) : m.Holds [] := fun i h => absurd h (Nat.not_lt_zero i)

theorem Memory.Holds.cell_eq {m : Memory} {bs : List Byte} (h : m.Holds bs) {i : Nat} (hi : i < bs.length) :
    m.cell i = some bs[i] := by rw [h i hi, List.getElem?_eq_getElem hi]

/-- Storing right after the bytes held appends one byte. -/
theorem Memory.Holds.store_append {m : Memory} {bs : List Byte} (h : m.Holds bs) (b : Byte) :
    (m.store bs.length b).Holds (bs ++ [b]) := by
  intro i hi
  simp only [List.length_append, List.length_singleton] at hi
  rw [Memory.cell_store]
  split
  · rename_i e; subst e; simp
  · rename_i e
    rw [h i (by omega), List.getElem?_append_left (by omega)]

/-- A burst of stores from address `a` leaves every address outside it alone. -/
theorem Memory.cell_storeAll_out (bs : List Byte) : ∀ (m : Memory) (a : Nat) {x : Nat},
    x < a ∨ a + bs.length ≤ x → (m.storeAll a bs).cell x = m.cell x := by
  induction bs with
  | nil => exact fun m a _ _ => rfl
  | cons b bs ih =>
    intro m a x h
    simp only [List.length_cons] at h
    rw [Memory.storeAll, ih _ _ (by omega), Memory.cell_store_ne _ _ (by omega)]

/-- A burst of stores right after the bytes held appends them. -/
theorem Memory.Holds.storeAll_append (cs : List Byte) : ∀ {m : Memory} {bs : List Byte}, m.Holds bs →
    (m.storeAll bs.length cs).Holds (bs ++ cs) := by
  induction cs with
  | nil => exact fun h => by simpa [Memory.storeAll] using h
  | cons c cs ih =>
    intro m bs h
    have := ih (h.store_append c)
    simpa [Memory.storeAll, List.append_assoc] using this

theorem Memory.storeAll_holds (m : Memory) (cs : List Byte) : (m.storeAll 0 cs).Holds cs := by
  simpa using Memory.Holds.storeAll_append cs (Memory.holds_nil m)

theorem Memory.storeAll_wf (cs : List Byte) : ∀ {m : Memory} (a : Nat), m.wf → (m.storeAll a cs).wf := by
  induction cs with
  | nil => exact fun _ h => h
  | cons c cs ih => exact fun a h => ih (a + 1) (Memory.store_wf h a c)

/-- Two byte lists of one length held by one memory are equal. -/
theorem Memory.Holds.unique {m : Memory} {bs cs : List Byte} (h : m.Holds bs) (h' : m.Holds cs)
    (hl : bs.length = cs.length) : bs = cs := by
  apply List.ext_getElem? fun i => ?_
  by_cases hi : i < bs.length
  · rw [← h i hi, h' i (by omega)]
  · rw [List.getElem?_eq_none (by omega), List.getElem?_eq_none (by omega)]

end Sys2Proof.Machine
end

