-- ==== Sys2Proof/Laws/State.lean ====
section
/-! SUPPORT. One lemma per field per named update of State, so that no proof unfolds an update. -/

namespace Sys2Proof.Machine

/-! ### ret -/

@[simp] theorem State.ret_ser (s : State) (v : Byte) : (s.ret v).ser = s.ser := rfl
@[simp] theorem State.ret_des (s : State) (v : Byte) : (s.ret v).des = s.des := rfl
@[simp] theorem State.ret_common (s : State) (v : Byte) : (s.ret v).common = s.common := rfl
@[simp] theorem State.ret_rdata (s : State) (v : Byte) : (s.ret v).rdata = v := rfl
@[simp] theorem State.ret_lineOut (s : State) (v : Byte) : (s.ret v).lineOut = s.lineOut := rfl
@[simp] theorem State.ret_lineIn (s : State) (v : Byte) : (s.ret v).lineIn = s.lineIn := rfl
@[simp] theorem State.ret_schedule (s : State) (v : Byte) : (s.ret v).schedule = s.schedule := rfl

/-! ### clearErr -/

@[simp] theorem State.clearErr_ser (s : State) (d : Byte) : (s.clearErr d).ser = s.ser := rfl
@[simp] theorem State.clearErr_des (s : State) (d : Byte) : (s.clearErr d).des = s.des := rfl
@[simp] theorem State.clearErr_common (s : State) (d : Byte) : (s.clearErr d).common = { s.common with
      errSeq := s.common.errSeq && !d.getLsbD 1
      errIdx := s.common.errIdx && !d.getLsbD 2
      errIllop := s.common.errIllop && !d.getLsbD 3 } := rfl
@[simp] theorem State.clearErr_rdata (s : State) (d : Byte) : (s.clearErr d).rdata = s.rdata := rfl
@[simp] theorem State.clearErr_lineOut (s : State) (d : Byte) : (s.clearErr d).lineOut = s.lineOut := rfl
@[simp] theorem State.clearErr_lineIn (s : State) (d : Byte) : (s.clearErr d).lineIn = s.lineIn := rfl
@[simp] theorem State.clearErr_schedule (s : State) (d : Byte) : (s.clearErr d).schedule = s.schedule := rfl

/-! ### resetRegisters -/

@[simp] theorem State.resetRegisters_ser (s : State) : (s.resetRegisters).ser = { Ser.reset with txp := s.ser.txp } := rfl
@[simp] theorem State.resetRegisters_des (s : State) : (s.resetRegisters).des = { Des.reset with rxb := s.des.rxb } := rfl
@[simp] theorem State.resetRegisters_common (s : State) : (s.resetRegisters).common = Common.reset := rfl
@[simp] theorem State.resetRegisters_rdata (s : State) : (s.resetRegisters).rdata = s.rdata := rfl
@[simp] theorem State.resetRegisters_lineOut (s : State) : (s.resetRegisters).lineOut = s.lineOut := rfl
@[simp] theorem State.resetRegisters_lineIn (s : State) : (s.resetRegisters).lineIn = s.lineIn := rfl
@[simp] theorem State.resetRegisters_schedule (s : State) : (s.resetRegisters).schedule = s.schedule := rfl

/-! ### pushOut -/

@[simp] theorem State.pushOut_ser (s : State) (b : Byte) : (s.pushOut b).ser = s.ser := rfl
@[simp] theorem State.pushOut_des (s : State) (b : Byte) : (s.pushOut b).des = s.des := rfl
@[simp] theorem State.pushOut_common (s : State) (b : Byte) : (s.pushOut b).common = s.common := rfl
@[simp] theorem State.pushOut_rdata (s : State) (b : Byte) : (s.pushOut b).rdata = s.rdata := rfl
@[simp] theorem State.pushOut_lineOut (s : State) (b : Byte) : (s.pushOut b).lineOut = s.lineOut ++ [b] := rfl
@[simp] theorem State.pushOut_lineIn (s : State) (b : Byte) : (s.pushOut b).lineIn = s.lineIn := rfl
@[simp] theorem State.pushOut_schedule (s : State) (b : Byte) : (s.pushOut b).schedule = s.schedule := rfl

/-! ### recordIn -/

@[simp] theorem State.recordIn_ser (s : State) (b : Byte) (k : Bool) : (s.recordIn b k).ser = s.ser := rfl
@[simp] theorem State.recordIn_des (s : State) (b : Byte) (k : Bool) : (s.recordIn b k).des = s.des := rfl
@[simp] theorem State.recordIn_common (s : State) (b : Byte) (k : Bool) : (s.recordIn b k).common = s.common := rfl
@[simp] theorem State.recordIn_rdata (s : State) (b : Byte) (k : Bool) : (s.recordIn b k).rdata = s.rdata := rfl
@[simp] theorem State.recordIn_lineOut (s : State) (b : Byte) (k : Bool) : (s.recordIn b k).lineOut = s.lineOut := rfl
@[simp] theorem State.recordIn_lineIn (s : State) (b : Byte) (k : Bool) : (s.recordIn b k).lineIn = s.lineIn ++ [{ byte := b, stored := k }] := rfl
@[simp] theorem State.recordIn_schedule (s : State) (b : Byte) (k : Bool) : (s.recordIn b k).schedule = s.schedule := rfl

/-! ### present -/

@[simp] theorem State.present_ser (s : State) (e : Stimulus) : (s.present e).ser = s.ser := rfl
@[simp] theorem State.present_des (s : State) (e : Stimulus) : (s.present e).des = s.des := rfl
@[simp] theorem State.present_common (s : State) (e : Stimulus) : (s.present e).common = s.common := rfl
@[simp] theorem State.present_rdata (s : State) (e : Stimulus) : (s.present e).rdata = s.rdata := rfl
@[simp] theorem State.present_lineOut (s : State) (e : Stimulus) : (s.present e).lineOut = s.lineOut := rfl
@[simp] theorem State.present_lineIn (s : State) (e : Stimulus) : (s.present e).lineIn = s.lineIn := rfl
@[simp] theorem State.present_schedule (s : State) (e : Stimulus) : (s.present e).schedule = e :: s.schedule := rfl

/-! ### raise -/

@[simp] theorem State.raise_des (s : State) (e : ErrKind) : (s.raise e).des = s.des := by
  cases e <;> rfl
@[simp] theorem State.raise_lineOut (s : State) (e : ErrKind) : (s.raise e).lineOut = s.lineOut := by
  cases e <;> rfl
@[simp] theorem State.raise_lineIn (s : State) (e : ErrKind) : (s.raise e).lineIn = s.lineIn := by
  cases e <;> rfl
@[simp] theorem State.raise_schedule (s : State) (e : ErrKind) : (s.raise e).schedule = s.schedule := by
  cases e <;> rfl
@[simp] theorem State.raise_rdata (s : State) (e : ErrKind) : (s.raise e).rdata = 0x00 := by
  cases e <;> rfl
@[simp] theorem State.raise_ctrl (s : State) (e : ErrKind) : (s.raise e).common.ctrl = s.common.ctrl := by
  cases e <;> rfl
@[simp] theorem State.raise_txOverflow_ser (s : State) : (s.raise .txOverflow).ser = { s.ser with txOvf := true } := rfl
@[simp] theorem State.raise_txOverflow_common (s : State) :
    (s.raise .txOverflow).common = s.common := rfl
@[simp] theorem State.raise_seqError_ser (s : State) : (s.raise .seqError).ser = s.ser := rfl
@[simp] theorem State.raise_seqError_common (s : State) :
    (s.raise .seqError).common = { s.common with errSeq := true } := rfl
@[simp] theorem State.raise_idxError_ser (s : State) : (s.raise .idxError).ser = s.ser := rfl
@[simp] theorem State.raise_idxError_common (s : State) :
    (s.raise .idxError).common = { s.common with errIdx := true } := rfl
@[simp] theorem State.raise_illegalOp_ser (s : State) : (s.raise .illegalOp).ser = s.ser := rfl
@[simp] theorem State.raise_illegalOp_common (s : State) :
    (s.raise .illegalOp).common = { s.common with errIllop := true } := rfl

end Sys2Proof.Machine
end

