-- ==== Sys2Proof/Laws/Deserializer.lean ====
section
/-! SUPPORT. What the deserializer's operations can do, in level-F terms, and that each keeps DesInv. -/

namespace Sys2Proof.Machine

/-! ### Verdicts -/

/-- R155, R34: SHORT is reported of a window below 5 bytes and of no other. -/
theorem Common.report_short {cfg : Config} (c : Common) {b : List Byte} (h : b.length < minFrame) :
    c.report cfg b = (.malformed, .short) := by simp [Common.report, LevelF.decode, h]

theorem Common.report_long {cfg : Config} (c : Common) {b : List Byte} (h : minFrame ≤ b.length) :
    c.report cfg b = c.verdict (LevelF.lengthOk b) (LevelF.checksumOk cfg b) := by
  simp [Common.report, LevelF.decode, Nat.not_lt.mpr h, Common.verdict]

/-- R163: the three results a long window can have. -/
theorem Common.verdict_cases (c : Common) (l k : Bool) :
    c.verdict l k = (.malformed, .length) ∨ c.verdict l k = (.malformed, .checksum) ∨
      c.verdict l k = (.ok, .none) := by
  unfold Common.verdict
  split
  · exact .inl rfl
  · split
    · exact .inr (.inl rfl)
    · exact .inr (.inr rfl)

/-! ### The window close -/

theorem Des.Window.last {r : Des} {b : List Byte} (h : r.Window b) (hn : minFrame ≤ b.length) :
    r.rxb.cell (b.length - 1) = b.getLast? := by
  unfold minFrame at hn
  rw [h.2 _ (by omega), List.getLast?_eq_getElem?]

/-- R163: the close computes ChecksumOk, LengthOk and the report of the window. -/
theorem Des.close_spec {cfg : Config} {r : Des} {b : List Byte} (c : Common) (h : r.Window b)
    (hck : r.rxCk = LevelF.ckFold cfg (LevelF.region b)) :
    r.close cfg c b.length = .ok (r.closed cfg c b) := by
  unfold Des.close
  split
  · rename_i hs
    have h1 : LevelF.checksumOk cfg b = false := by simp [LevelF.checksumOk, hs]
    have h2 : LevelF.lengthOk b = false := by simp [LevelF.lengthOk, hs]
    simp [Des.closed, Common.report_short c hs, h1, h2]
  · rename_i hs
    have hn : minFrame ≤ b.length := Nat.not_lt.mp hs
    have h5 : 5 ≤ b.length := hn
    have e3 : r.rxb.cell lenAddr = some (b[3]) := h.2.cell_eq (i := 3) (by omega)
    have el : r.rxb.cell (b.length - 1) = some (b[b.length - 1]) := h.2.cell_eq (by omega)
    have hl : lenFlag b.length b[3] = LevelF.lengthOk b := by
      rw [Bool.eq_iff_iff]
      simp [lenFlag, LevelF.lengthOk, hn, List.getElem?_eq_getElem (show 3 < b.length by omega)]
    have hk : ckFlag cfg r.rxCk b[b.length - 1] = LevelF.checksumOk cfg b := by
      rw [Bool.eq_iff_iff]
      simp only [ckFlag, LevelF.checksumOk, hn, ckaResult, hck, LevelF.ck, List.getLast?_eq_getElem?,
        List.getElem?_eq_getElem (show b.length - 1 < b.length by omega), decide_true, Bool.true_and,
        beq_iff_eq, Option.some.injEq]
      exact eq_comm
    simp only [Memory.load_ok e3, Memory.load_ok el, hl, hk, Des.closed, Common.report_long c hn]

/-- Everything a successful close can do: it ends the window and sets the flags and the result. -/
theorem Des.close_next {cfg : Config} {c : Common} {n : Nat} {r r' : Des} (h : r.close cfg c n = .ok r') :
    r'.rxState = .done ∧ r'.rxCnt = r.rxCnt ∧ r'.rxCk = r.rxCk ∧ r'.rxFull = r.rxFull ∧
      r'.recSel = r.recSel ∧ r'.rxb = r.rxb := by
  unfold Des.close at h
  split at h
  · obtain rfl := Except.ok.inj h
    exact ⟨rfl, rfl, rfl, rfl, rfl, rfl⟩
  · split at h
    · obtain rfl := Except.ok.inj h
      exact ⟨rfl, rfl, rfl, rfl, rfl, rfl⟩
    · cases h
    · cases h

/-! ### Receiving a byte -/

/-- R30: the 9-bit counter does not wrap below RX_MAX. -/
theorem rxMax_le (cfg : Config) : cfg.rxMax ≤ 260 := by
  have := cfg.rxSlack.isLt
  simp only [Config.rxMax]; omega

theorem le_rxMax (cfg : Config) : 5 ≤ cfg.rxMax := by simp [Config.rxMax]

theorem rxCnt_succ {cfg : Config} {n : Position} (h : n.toNat < cfg.rxMax) : (n + 1).toNat = n.toNat + 1 := by
  have := rxMax_le cfg
  rw [BitVec.toNat_add]
  simp; omega

theorem Des.Window.stored {cfg : Config} {r : Des} {b : List Byte} (h : r.Window b) (x : Byte)
    (hm : b.length < cfg.rxMax) : (r.stored cfg b x).Window (b ++ [x]) := by
  have e : r.storeAddr = b.length := h.1.symm
  refine ⟨?_, ?_⟩
  · have := rxCnt_succ (cfg := cfg) (n := r.rxCnt) (h.1 ▸ hm)
    have h1 := h.1
    simp only [Des.stored, List.length_append, List.length_singleton]
    omega
  · show (r.rxb.store r.storeAddr x).Holds _
    rw [e]
    exact h.2.store_append x

/-- R161: the store, and the absorption one byte behind. -/
theorem Des.storeByte_spec {cfg : Config} {r : Des} {b : List Byte} (h : r.Window b) (x : Byte)
    (hm : b.length < cfg.rxMax) (hck : r.rxCk = LevelF.ckFold cfg (LevelF.region b)) :
    r.storeByte cfg x = .ok (r.stored cfg b x) := by
  have e : r.storeAddr = b.length := h.1.symm
  have habs : r.absorbPrevious cfg = .ok (LevelF.ckFold cfg (LevelF.region (b ++ [x]))) := by
    unfold Des.absorbPrevious
    split
    · rename_i h2
      have h2' : 2 ≤ b.length := h.1 ▸ h2
      have hc : r.rxb.cell (r.storeAddr - 1) = some (b[b.length - 1]) := by
        rw [e]; exact h.2.cell_eq (by omega)
      simp only [Memory.load_ok hc, ckaAbsorb, LevelF.region_append x h2', LevelF.ckFold_append, hck]
    · rename_i h2
      have h2' : b.length < 2 := by have := h.1; omega
      rw [LevelF.region_append_short x h2', hck]
  have hst := Memory.storeIn_ok (sp := .rxb) (m := r.rxb) x (show r.storeAddr < cfg.rxMax by omega)
  simp only [Des.storeByte, habs, hst, Des.stored]

/-- R161 in R_RECV. -/
theorem Des.receive_spec {cfg : Config} {r : Des} {b : List Byte} (c : Common) (h : r.Window b) (x : Byte)
    (hm : b.length < cfg.rxMax) (hck : r.rxCk = LevelF.ckFold cfg (LevelF.region b)) :
    r.receive cfg c x = .ok (if b.length + 1 = cfg.rxMax then
      ({ r.stored cfg b x with rxFull := true } : Des).closed cfg c (b ++ [x]) else r.stored cfg b x) := by
  have hw := h.stored x hm
  have hlen : (r.stored cfg b x).rxCnt.toNat = b.length + 1 := by rw [← hw.1]; simp
  simp only [Des.receive, Des.storeByte_spec h x hm hck, hlen]
  split
  · have := Des.close_spec (cfg := cfg) (r := { r.stored cfg b x with rxFull := true }) c
      (b := b ++ [x]) hw rfl
    simpa using this
  · rfl

/-! ### DesInv is kept -/

theorem DesInv.reset (cfg : Config) : DesInv cfg Des.reset where
  rxbWf := by simp [Des.reset]
  rxbWithin := by simp [Des.reset]
  cntMax := Nat.zero_le _
  recvCnt := by simp [Des.reset]
  window := ⟨[], ⟨rfl, Memory.holds_nil _⟩, by simp [Des.reset], by simp [Des.reset]⟩
  openFlags := by simp [Des.reset]
  resNone := by simp [Des.reset]
  causeMalf := by simp [Des.reset]
  okCnt := by simp [Des.reset]
  shortCnt := by simp [Des.reset]
  fullDone := by simp [Des.reset]

theorem DesInv.resetRegisters {cfg : Config} {r : Des} (h : DesInv cfg r) :
    DesInv cfg { Des.reset with rxb := r.rxb } :=
  { DesInv.reset cfg with
    rxbWf := h.rxbWf, rxbWithin := h.rxbWithin
    window := ⟨[], ⟨rfl, Memory.holds_nil _⟩, by simp [Des.reset], by simp [Des.reset]⟩ }

/-- R160. -/
theorem DesInv.arm {cfg : Config} {r : Des} (h : DesInv cfg r) : DesInv cfg (r.arm cfg) where
  rxbWf := h.rxbWf
  rxbWithin := h.rxbWithin
  cntMax := Nat.zero_le _
  recvCnt := fun _ => by have := le_rxMax cfg; simp [Des.arm]; omega
  window := ⟨[], ⟨rfl, Memory.holds_nil _⟩, fun _ => rfl, by simp [Des.arm]⟩
  openFlags := fun _ => ⟨rfl, rfl⟩
  resNone := by simp [Des.arm]
  causeMalf := by simp [Des.arm]
  okCnt := by simp [Des.arm]
  shortCnt := by simp [Des.arm]
  fullDone := by simp [Des.arm]

/-- R195. -/
theorem DesInv.select {cfg : Config} {r : Des} (h : DesInv cfg r) (d : Byte) :
    DesInv cfg { r with recSel := d } := { h with }

/-- R163: the invariants hold after a close; `full` says whether the buffer filled. -/
theorem DesInv.closed {cfg : Config} {r : Des} {b : List Byte} (c : Common) (hwf : r.rxb.wf)
    (hwi : r.rxb.within cfg.rxMax) (hm : b.length ≤ cfg.rxMax) (hw : r.Window b)
    (hck : r.rxCk = LevelF.ckFold cfg (LevelF.region b))
    (hf : r.rxFull = true → b.length = cfg.rxMax) : DesInv cfg (r.closed cfg c b) := by
  have hcnt : r.rxCnt.toNat = b.length := hw.1.symm
  have rep : (c.report cfg b = (.malformed, .short) ∧ b.length < minFrame) ∨
      (minFrame ≤ b.length ∧ (c.report cfg b = (.malformed, .length) ∨
        c.report cfg b = (.malformed, .checksum) ∨ c.report cfg b = (.ok, .none))) := by
    by_cases hs : b.length < minFrame
    · exact .inl ⟨Common.report_short c hs, hs⟩
    · have hl := Nat.not_lt.mp hs
      exact .inr ⟨hl, by rw [Common.report_long c hl]; exact Common.verdict_cases _ _ _⟩
  exact {
    rxbWf := hwf
    rxbWithin := hwi
    cntMax := by show r.rxCnt.toNat ≤ _; omega
    recvCnt := by simp [Des.closed]
    window := ⟨b, hw, fun _ => hck, fun _ => ⟨rfl, rfl⟩⟩
    openFlags := by simp [Des.closed]
    resNone := by rcases rep with ⟨e, -⟩ | ⟨-, e | e | e⟩ <;> simp [Des.closed, e]
    causeMalf := by rcases rep with ⟨e, -⟩ | ⟨-, e | e | e⟩ <;> simp [Des.closed, e]
    okCnt := by
      intro e
      show _ ≤ r.rxCnt.toNat
      rcases rep with ⟨e', -⟩ | ⟨hl, -⟩
      · simp [Des.closed, e'] at e
      · omega
    shortCnt := by
      show _ ↔ _ ∧ r.rxCnt.toNat < _
      rw [hcnt]
      rcases rep with ⟨e, hs⟩ | ⟨hl, e | e | e⟩ <;> simp [Des.closed, e] <;> omega
    fullDone := fun e => ⟨rfl, by show r.rxCnt.toNat = _; rw [hcnt]; exact hf e⟩ }

/-- R161, R46: RXBYTE in an open window keeps the deserializer's invariants and does not fail. -/
theorem DesInv.receive {cfg : Config} {r : Des} (c : Common) (h : DesInv cfg r) (hr : r.rxState = .recv)
    (x : Byte) : ∃ r', r.receive cfg c x = .ok r' ∧ DesInv cfg r' := by
  obtain ⟨b, hw, hck, -⟩ := h.window
  have hck := hck (by simp [hr])
  have hm : b.length < cfg.rxMax := hw.1 ▸ h.recvCnt hr
  have e : r.storeAddr = b.length := hw.1.symm
  refine ⟨_, Des.receive_spec c hw x hm hck, ?_⟩
  have hws := hw.stored x hm
  have hwf : (r.stored cfg b x).rxb.wf := Memory.store_wf h.rxbWf _ _
  have hwi : (r.stored cfg b x).rxb.within cfg.rxMax := Memory.store_within h.rxbWithin (by omega) x
  have hcnt : (r.stored cfg b x).rxCnt.toNat = b.length + 1 := by rw [← hws.1]; simp
  split
  · rename_i hfull
    exact DesInv.closed c hwf hwi (by simp; omega) hws rfl (fun _ => by simp; omega)
  · rename_i hfull
    have hnd : r.rxState ≠ .done := by simp [hr]
    have hnf : r.rxFull = false := by
      cases hf : r.rxFull
      · rfl
      · exact absurd (h.fullDone hf).1 hnd
    exact {
      rxbWf := hwf
      rxbWithin := hwi
      cntMax := by omega
      recvCnt := fun _ => by omega
      window := ⟨b ++ [x], hws, fun _ => rfl, fun e => absurd e hnd⟩
      openFlags := h.openFlags
      resNone := h.resNone
      causeMalf := h.causeMalf
      okCnt := fun e => absurd (h.resNone.mpr hnd) (by rw [show r.rxRes = .ok from e]; simp)
      shortCnt := by
        constructor
        · intro e
          exact absurd (h.shortCnt.mp e).1 hnd
        · intro e
          exact absurd e.1 hnd
      fullDone := fun e => absurd (show r.rxFull = true from e) (by simp [hnf]) }

/-- R161, R45. -/
theorem DesInv.rxByte {cfg : Config} {s : State} (h : DesInv cfg s.des) (x : Byte) :
    ∃ s', s.rxByte cfg x = .ok s' ∧ DesInv cfg s'.des ∧ s'.ser = s.ser := by
  unfold State.rxByte
  split
  · rename_i hr
    obtain ⟨r', hr', hi⟩ := h.receive s.common hr x
    exact ⟨({ s with des := r' } : State).recordIn x true, by rw [hr'], hi, rfl⟩
  · exact ⟨_, rfl, h, rfl⟩

/-- R162. -/
theorem DesInv.rxEnd {cfg : Config} {s : State} (h : DesInv cfg s.des) :
    ∃ s', s.rxEnd cfg = .ok s' ∧ DesInv cfg s'.des ∧ s'.ser = s.ser := by
  unfold State.rxEnd
  split
  · rename_i hr
    obtain ⟨b, hw, hck, -⟩ := h.window
    have hck := hck (by simp [hr])
    have hnf : s.des.rxFull = true → b.length = cfg.rxMax := fun e =>
      absurd (h.fullDone e).1 (by simp [hr])
    have hm : b.length ≤ cfg.rxMax := hw.1 ▸ h.cntMax
    rw [← hw.1, Des.close_spec s.common hw hck]
    exact ⟨_, rfl, DesInv.closed s.common h.rxbWf h.rxbWithin hm hw hck hnf, rfl⟩
  · exact ⟨_, rfl, h, rfl⟩

/-- R103 FEED: any bytes may be delivered in any state that meets the invariants. -/
theorem DesInv.feed {cfg : Config} (bs : List Byte) : ∀ {s : State}, DesInv cfg s.des →
    ∃ s', s.feed cfg bs = .ok s' ∧ DesInv cfg s'.des ∧ s'.ser = s.ser := by
  induction bs with
  | nil => exact fun h => ⟨_, rfl, h, rfl⟩
  | cons x bs ih =>
    intro s h
    obtain ⟨s1, e1, h1, hs1⟩ := h.rxByte x
    obtain ⟨s2, e2, h2, hs2⟩ := ih h1
    exact ⟨s2, by simp only [State.feed, e1, e2], h2, hs2.trans hs1⟩

/-! ### Reads of the result -/

/-- A result read can refuse, fault, or do what it reads. -/
theorem State.withResult_valid {s : State} (h : s.des.resultValid = true) (k : Result) :
    s.withResult k = k := by simp [State.withResult, h]

theorem State.withResult_invalid {s : State} (h : s.des.resultValid = false) (k : Result) :
    s.withResult k = .next (s.raise .seqError) := by simp [State.withResult, h]

theorem State.readRxb_window {s : State} {b : List Byte} (h : s.des.Window b) {a : Nat} (ha : a < b.length) :
    s.readRxb a = .next (s.ret b[a]) := by
  simp [State.readRxb, Memory.load_ok (h.2.cell_eq ha)]

/-- R164, R46 I8: a valid result is a window of at least 5 bytes. -/
theorem DesInv.resultValid {cfg : Config} {r : Des} (h : DesInv cfg r) (hv : r.resultValid = true) :
    r.rxState = .done ∧ r.rxRes = .ok ∧ minFrame ≤ r.rxCnt.toNat := by
  simp only [Des.resultValid, Bool.and_eq_true, beq_iff_eq] at hv
  exact ⟨hv.1, hv.2, h.okCnt hv.2⟩

end Sys2Proof.Machine
end

