-- ==== Sys2Proof/Laws/Serializer.lean ====
section
/-! SUPPORT. What the serializer's operations can do: one lemma per operation, and that each keeps SerInv. -/

namespace Sys2Proof.Machine

/-! ### The position counter -/

theorem Ser.lastIdx_le (t : Ser) : t.lastIdx ≤ 259 := by
  have := t.txLen.isLt
  simp only [Ser.lastIdx, hdrLen]; omega

/-- R26: the 9-bit counter does not wrap below the checksum position. -/
theorem Ser.txIdx_succ {t : Ser} (h : t.txIdx.toNat ≤ t.lastIdx) : (t.txIdx + 1).toNat = t.txIdx.toNat + 1 := by
  have := t.lastIdx_le
  rw [BitVec.toNat_add]
  simp; omega

theorem Ser.advance_last {t : Ser} (h : t.txIdx.toNat = t.lastIdx) :
    t.advance = { t with txState := .idle, txDone := true, txIdx := 0 } := by simp [Ser.advance, h]

theorem Ser.advance_next {t : Ser} (h : t.txIdx.toNat ≠ t.lastIdx) :
    t.advance = { t with txIdx := t.txIdx + 1 } := by simp [Ser.advance, h]

/-! ### The byte sent -/

/-- R139: the byte EMIT sends is the frame's byte at the present position, and the accumulator goes on
holding the fold of the region's bytes sent so far. -/
theorem Ser.nextByte_frame {cfg : Config} {t : Ser} {p : List Byte} (hp : t.Loaded p)
    (hi : t.txIdx.toNat ≤ t.lastIdx)
    (hck : 1 ≤ t.txIdx.toNat → t.txCk = t.accAt cfg p t.txIdx.toNat) :
    ∃ b, (t.frame cfg p)[t.txIdx.toNat]? = some b ∧
      t.nextByte cfg = .ok (b, t.accAt cfg p (t.txIdx.toNat + 1)) := by
  unfold Ser.accAt Ser.frame at *
  obtain ⟨hlen, hcells⟩ := hp
  have hlast : t.lastIdx = 4 + p.length := by simp [Ser.lastIdx, hdrLen, hlen]
  have hn : BitVec.ofNat 8 p.length = t.txLen := by rw [hlen]; simp
  generalize hF : LevelF.commandFrame cfg t.txCmd p = F at *
  have hFlen : F.length = 5 + p.length := by rw [← hF]; simp
  generalize hI : t.txIdx.toNat = i at *
  -- absorbing the byte at position i, for 1 ≤ i < 4 + N
  have absorb : ∀ b, 1 ≤ i → i < t.lastIdx → F[i]? = some b →
      ckaAbsorb cfg t.txCk b = LevelF.ckFold cfg (LevelF.slice F 1 (min (i + 1) t.lastIdx)) := by
    intro b h1 h2 hb
    have hlt : i < F.length := by omega
    rw [show min (i + 1) t.lastIdx = i + 1 by omega, LevelF.slice_succ h1 hlt, LevelF.ckFold_append,
      hck h1, show min i t.lastIdx = i by omega]
    rw [List.getElem?_eq_getElem hlt, Option.some.injEq] at hb
    rw [hb, ckaAbsorb]
  simp only [Ser.nextByte, hI]
  split
  · rename_i h0
    subst h0
    refine ⟨cfg.syncByte, by rw [← hF]; rfl, ?_⟩
    rw [show min (0 + 1) t.lastIdx = 1 by omega, LevelF.slice_one_one, ckaClear, LevelF.ckFold_nil]
  · split
    · rename_i h; subst h
      have hb : F[1]? = some cfg.versionByte := by rw [← hF]; rfl
      exact ⟨_, hb, by rw [absorb _ (by omega) (by omega) hb]⟩
    · split
      · rename_i h; subst h
        have hb : F[2]? = some t.txCmd := by rw [← hF]; rfl
        exact ⟨_, hb, by rw [absorb _ (by omega) (by omega) hb]⟩
      · split
        · rename_i h; subst h
          have hb : F[3]? = some t.txLen := by rw [← hF, ← hn]; rfl
          exact ⟨_, hb, by rw [absorb _ (by omega) (by omega) hb]⟩
        · split
          · have hpar : i - 4 < p.length := by omega
            have hb : F[i]? = some (p[i - 4]) := by
              rw [← hF, LevelF.commandFrame_param cfg t.txCmd p (by omega) (by omega),
                List.getElem?_eq_getElem hpar]
            have haddr : t.paramAddr = i - 4 := by simp [Ser.paramAddr, hI, hdrLen]
            rw [Memory.load_ok (hcells.cell_eq (haddr ▸ hpar))]
            simp only [haddr]
            exact ⟨_, hb, by rw [absorb _ (by omega) (by omega) hb]⟩
          · have hil : i = 4 + p.length := by omega
            refine ⟨_, by rw [hil, ← hF]; exact LevelF.commandFrame_last cfg t.txCmd p, ?_⟩
            have hreg : LevelF.region F = LevelF.slice F 1 (4 + p.length) := by
              unfold LevelF.region; rw [hFlen]; congr 1; omega
            have hmin : min (i + 1) t.lastIdx = 4 + p.length := by omega
            have hck' := hck (by omega)
            rw [show min i t.lastIdx = 4 + p.length by omega] at hck'
            rw [hF, hreg, hmin, ckaResult, hck', LevelF.ck]

/-! ### What the invariant gives a frame in flight -/

/-- R138: one EMIT of a frame in flight puts the frame's next byte on the line and moves the position. -/
theorem State.emitByte_spec {cfg : Config} {s : State} {p : List Byte} (hp : s.ser.Loaded p)
    (hi : s.ser.txIdx.toNat ≤ s.ser.lastIdx)
    (hck : 1 ≤ s.ser.txIdx.toNat → s.ser.txCk = s.ser.accAt cfg p s.ser.txIdx.toNat) :
    ∃ b, (s.ser.frame cfg p)[s.ser.txIdx.toNat]? = some b ∧
      s.emitByte cfg = .ok { s with
        ser := { s.ser.advance with txCk := s.ser.accAt cfg p (s.ser.txIdx.toNat + 1) }
        lineOut := s.lineOut ++ [b] } := by
  obtain ⟨b, hb, hn⟩ := Ser.nextByte_frame hp hi hck
  exact ⟨b, hb, by simp only [State.emitByte, hn]; rfl⟩

/-- Everything a successful EMIT can do, with no invariant. -/
theorem State.emitByte_next {cfg : Config} {s s' : State} (h : s.emitByte cfg = .ok s') :
    ∃ b acc, s.ser.nextByte cfg = .ok (b, acc) ∧
      s' = { s with ser := { s.ser.advance with txCk := acc }, lineOut := s.lineOut ++ [b] } := by
  unfold State.emitByte at h
  split at h
  · rename_i b acc hn
    exact ⟨b, acc, hn, by simpa [State.pushOut] using h.symm⟩
  · cases h

/-! ### SerInv is kept -/

theorem SerInv.reset (cfg : Config) : SerInv cfg Ser.reset where
  txpWf := by simp [Ser.reset]
  txpWithin := by simp [Ser.reset]
  ovfFull := by simp [Ser.reset]
  busyIdx := by simp [Ser.reset]
  idleIdx := by simp [Ser.reset]
  busyDone := by simp [Ser.reset]
  loaded := ⟨[], ⟨rfl, Memory.holds_nil _⟩, by simp [Ser.reset]⟩

/-- R260, R213: reset keeps the cells of TXP and empties what is loaded. -/
theorem SerInv.resetRegisters {cfg : Config} {t : Ser} (h : SerInv cfg t) :
    SerInv cfg { Ser.reset with txp := t.txp } where
  txpWf := h.txpWf
  txpWithin := h.txpWithin
  ovfFull := by simp [Ser.reset]
  busyIdx := by simp [Ser.reset]
  idleIdx := by simp [Ser.reset]
  busyDone := by simp [Ser.reset]
  loaded := ⟨[], ⟨rfl, Memory.holds_nil _⟩, by simp [Ser.reset]⟩

theorem TxState.idle_of_ne {x : TxState} (h : x ≠ .busy) : x = .idle := by cases x <;> simp_all

theorem SerInv.txClear {cfg : Config} {s : State} (h : SerInv cfg s.ser) : SerInv cfg s.txClear.ser := by
  unfold State.txClear
  split
  · exact h
  · rename_i hb
    exact { txpWf := h.txpWf, txpWithin := h.txpWithin, ovfFull := by simp
            busyIdx := fun e => absurd e hb, idleIdx := h.idleIdx, busyDone := fun e => absurd e hb
            loaded := ⟨[], ⟨rfl, Memory.holds_nil _⟩, fun e => absurd e hb⟩ }

theorem SerInv.txCommand {cfg : Config} {s : State} (h : SerInv cfg s.ser) (d : Byte) :
    SerInv cfg (s.txCommand d).ser := by
  unfold State.txCommand
  split
  · exact h
  · rename_i hb
    obtain ⟨p, hp, -⟩ := h.loaded
    exact { txpWf := h.txpWf, txpWithin := h.txpWithin, ovfFull := h.ovfFull
            busyIdx := fun e => absurd e hb, idleIdx := h.idleIdx, busyDone := fun e => absurd e hb
            loaded := ⟨p, hp, fun e => absurd e hb⟩ }

/-- R22, R136: a count below 255 goes up by one. -/
theorem txLen_succ {n : BitVec 8} (h : n ≠ 255) : (n + 1).toNat = n.toNat + 1 := by
  have h1 : n.toNat ≠ 255 := fun e => h (BitVec.eq_of_toNat_eq (by simpa using e))
  have := n.isLt
  rw [BitVec.toNat_add]
  simp; omega

/-- R136: an accepted push appends the byte to the loaded parameters. -/
theorem Ser.Loaded.push {t : Ser} {p : List Byte} (h : t.Loaded p) (hn : t.txLen ≠ 255) (d : Byte) :
    ({ t with txp := t.txp.store t.storeAddr d, txLen := t.txLen + 1 } : Ser).Loaded (p ++ [d]) := by
  refine ⟨by rw [List.length_append, h.1]; exact (txLen_succ hn).symm, ?_⟩
  have : t.storeAddr = p.length := h.1.symm
  rw [this]
  exact h.2.store_append d

theorem SerInv.txPush {cfg : Config} {s : State} (h : SerInv cfg s.ser) (d : Byte) :
    SerInv cfg (s.txPush d).ser := by
  unfold State.txPush
  split
  · exact h
  · rename_i hb
    obtain ⟨p, hp, -⟩ := h.loaded
    split
    · rename_i hn
      exact { txpWf := h.txpWf, txpWithin := h.txpWithin, ovfFull := fun _ => hn
              busyIdx := fun e => absurd e hb, idleIdx := h.idleIdx, busyDone := fun e => absurd e hb
              loaded := ⟨p, hp, fun e => absurd e hb⟩ }
    · rename_i hn
      have ha : s.ser.storeAddr < txPMax := by
        have h1 : s.ser.txLen.toNat ≠ 255 := fun e => hn (BitVec.eq_of_toNat_eq (by simpa using e))
        have := s.ser.txLen.isLt
        simp only [Ser.storeAddr, txPMax]; omega
      exact { txpWf := Memory.store_wf h.txpWf _ _
              txpWithin := Memory.store_within h.txpWithin ha d
              ovfFull := fun e => absurd (h.ovfFull e) hn
              busyIdx := fun e => absurd e hb, idleIdx := h.idleIdx, busyDone := fun e => absurd e hb
              loaded := ⟨p ++ [d], hp.push hn d, fun e => absurd e hb⟩ }

theorem SerInv.txGo {cfg : Config} {s : State} (h : SerInv cfg s.ser) : SerInv cfg s.txGo.ser := by
  unfold State.txGo
  split
  · exact h
  · split
    · exact h
    · obtain ⟨p, hp, -⟩ := h.loaded
      exact { txpWf := h.txpWf, txpWithin := h.txpWithin, ovfFull := h.ovfFull
              busyIdx := fun _ => Nat.zero_le _, idleIdx := by simp, busyDone := fun _ => rfl
              loaded := ⟨p, hp, fun _ h1 => absurd h1 (by simp)⟩ }

/-- R138, R46: EMIT keeps the serializer's invariants. -/
theorem SerInv.emitByte {cfg : Config} {s s' : State} (h : SerInv cfg s.ser) (hb : s.ser.txState = .busy)
    (he : s.emitByte cfg = .ok s') : SerInv cfg s'.ser := by
  obtain ⟨p, hp, hck⟩ := h.loaded
  obtain ⟨b, -, hs⟩ := State.emitByte_spec hp (h.busyIdx hb) (hck hb)
  rw [hs] at he
  obtain rfl : _ = s' := Except.ok.inj he
  by_cases hl : s.ser.txIdx.toNat = s.ser.lastIdx
  · rw [Ser.advance_last hl]
    exact { txpWf := h.txpWf, txpWithin := h.txpWithin, ovfFull := h.ovfFull, busyIdx := by simp
            idleIdx := fun _ => rfl, busyDone := by simp, loaded := ⟨p, hp, by simp⟩ }
  · have hi := h.busyIdx hb
    have hlt : s.ser.txIdx.toNat + 1 ≤ s.ser.lastIdx := by omega
    have hsucc := Ser.txIdx_succ hi
    rw [Ser.advance_next hl]
    refine { txpWf := h.txpWf, txpWithin := h.txpWithin, ovfFull := h.ovfFull
             busyIdx := fun _ => ?_, idleIdx := fun e => absurd (hb.symm.trans e) (by simp)
             busyDone := h.busyDone, loaded := ⟨p, hp, fun _ _ => ?_⟩ }
    · show (s.ser.txIdx + 1).toNat ≤ s.ser.lastIdx
      omega
    · show _ = s.ser.accAt cfg p (s.ser.txIdx + 1).toNat
      rw [hsucc]

/-- R142, R239: an enabled EMIT of a state that meets the invariants does not fail. -/
theorem SerInv.emitByte_ok {cfg : Config} {s : State} (h : SerInv cfg s.ser) (hb : s.ser.txState = .busy) :
    ∃ s', s.emitByte cfg = .ok s' := by
  obtain ⟨p, hp, hck⟩ := h.loaded
  obtain ⟨b, -, hs⟩ := State.emitByte_spec hp (h.busyIdx hb) (hck hb)
  exact ⟨_, hs⟩

end Sys2Proof.Machine
end

