-- ==== Sys2Proof/Laws/Wire.lean ====
section
/-! SUPPORT. What ENCODE, DRAIN and FEED do as bursts of the single steps (30_encoding.md R103). -/

namespace Sys2Proof.Machine

/-! ### ENCODE -/

/-- R136: pushes of at most 255 bytes in all are all accepted. -/
theorem State.pushes_spec (q : List Byte) : ∀ {s : State}, s.ser.txState = .idle → s.rdata = 0x00 →
    s.ser.txLen.toNat + q.length ≤ txPMax →
    q.foldl State.txPush s = { s with ser := { s.ser with
      txp := s.ser.txp.storeAll s.ser.txLen.toNat q, txLen := s.ser.txLen + BitVec.ofNat 8 q.length } } := by
  induction q with
  | nil => intro s _ _ _; simp [Memory.storeAll]
  | cons d q ih =>
    intro s hi hr hn
    simp only [List.length_cons, txPMax] at hn
    have hne : s.ser.txLen ≠ 255 := fun e => by
      have : s.ser.txLen.toNat = 255 := by rw [e]; rfl
      omega
    have hstep : s.txPush d = { s with ser := { s.ser with
        txp := s.ser.txp.store s.ser.txLen.toNat d, txLen := s.ser.txLen + 1 } } := by
      rw [State.txPush, if_neg (by simp [hi]), if_neg hne]
      simp only [Ser.storeAddr, ← hr]
    have hlen := txLen_succ hne
    rw [List.foldl_cons, hstep, ih (by exact hi) (by exact hr) (by simp only [txPMax]; omega)]
    have hsum : s.ser.txLen + 1 + BitVec.ofNat 8 q.length = s.ser.txLen + BitVec.ofNat 8 (q.length + 1) := by
      apply BitVec.eq_of_toNat_eq
      simp
      omega
    simp only [hlen, Memory.storeAll, List.length_cons, hsum]

/-- R103 ENCODE in T_IDLE. -/
theorem State.load_idle {s : State} {p : List Byte} (c : Byte) (hi : s.ser.txState = .idle)
    (hp : p.length ≤ txPMax) :
    s.load c p = { s with ser := s.ser.loadedWith c p, rdata := 0x00 } := by
  have h1 : s.txClear.txCommand c = { s with
      ser := { s.ser with txLen := 0, txOvf := false, txCmd := c }, rdata := 0x00 } := by
    simp [State.txClear, State.txCommand, hi]
  rw [State.load, h1, State.pushes_spec p (by exact hi) rfl (by simpa using hp)]
  simp [State.txGo, hi, Ser.loadedWith]

/-- R134 to R137: in T_BUSY every load op is refused, so ENCODE only sets SEQ. -/
theorem State.load_busy {s : State} (c : Byte) (p : List Byte) (hb : s.ser.txState = .busy) :
    s.load c p = s.raise .seqError := by
  have h0 : (s.raise .seqError).ser.txState = .busy := hb
  have rr : (s.raise .seqError).raise .seqError = s.raise .seqError := rfl
  have h1 : s.txClear.txCommand c = s.raise .seqError := by
    simp only [State.txClear, State.txCommand, hb, if_true, h0, rr]
  have h2 : ∀ q : List Byte, q.foldl State.txPush (s.raise .seqError) = s.raise .seqError := by
    intro q
    induction q with
    | nil => rfl
    | cons d q ih =>
      have : (s.raise .seqError).txPush d = s.raise .seqError := by simp only [State.txPush, h0, if_true, rr]
      rw [List.foldl_cons, this, ih]
  rw [State.load, h1, h2]
  simp only [State.txGo, h0, if_true, rr]

/-- R139: after ENCODE the parameters are loaded. -/
theorem Ser.loadedWith_loaded (t : Ser) (c : Byte) {p : List Byte} (hp : p.length ≤ txPMax) :
    (t.loadedWith c p).Loaded p := by
  refine ⟨?_, Memory.storeAll_holds _ _⟩
  unfold txPMax at hp
  simp [Ser.loadedWith]; omega

/-! ### DRAIN -/

theorem Ser.accAt_last (cfg : Config) (t : Ser) {p : List Byte} (h : t.Loaded p) {i : Nat} (hi : t.lastIdx ≤ i) :
    t.accAt cfg p i = LevelF.ckFold cfg (LevelF.region (LevelF.commandFrame cfg t.txCmd p)) := by
  have hl : t.lastIdx = 4 + p.length := by simp [Ser.lastIdx, hdrLen, h.1]
  unfold Ser.accAt Ser.frame LevelF.region
  rw [LevelF.commandFrame_length]
  congr 2
  omega

/-- R139: the EMITs that remain send the rest of the frame, in order, and leave SER idle. -/
theorem State.emits_spec {cfg : Config} {p : List Byte} (k : Nat) : ∀ {fuel : Nat} {s : State},
    s.ser.txState = .busy → s.ser.Loaded p → s.ser.txIdx.toNat + k = s.ser.lastIdx → k < fuel →
    (1 ≤ s.ser.txIdx.toNat → s.ser.txCk = s.ser.accAt cfg p s.ser.txIdx.toNat) →
    s.emits cfg fuel = .ok { s with
      ser := s.ser.sent cfg p, lineOut := s.lineOut ++ (s.ser.frame cfg p).drop s.ser.txIdx.toNat } := by
  induction k with
  | zero =>
    intro fuel s hb hp hk hf hck
    obtain ⟨fuel, rfl⟩ := Nat.exists_eq_succ_of_ne_zero (by omega : fuel ≠ 0)
    obtain ⟨b, hbyte, hs⟩ := State.emitByte_spec hp (by omega) hck
    have hlast : s.ser.txIdx.toNat = s.ser.lastIdx := by omega
    have hlen : s.ser.lastIdx = 4 + p.length := by simp [Ser.lastIdx, hdrLen, hp.1]
    simp only [State.emits, hb, if_true, hs, Ser.advance_last hlast]
    have hd : (s.ser.frame cfg p).drop s.ser.txIdx.toNat = [b] := by
      obtain ⟨hlt, hget⟩ := List.getElem?_eq_some_iff.mp hbyte
      rw [List.drop_eq_getElem_cons hlt, hget, List.drop_eq_nil_of_le (by simp [Ser.frame]; omega)]
    rw [hd, Ser.accAt_last cfg s.ser hp (by omega)]
    cases fuel <;> simp [State.emits, Ser.sent]
  | succ k ih =>
    intro fuel s hb hp hk hf hck
    obtain ⟨fuel, rfl⟩ := Nat.exists_eq_succ_of_ne_zero (by omega : fuel ≠ 0)
    obtain ⟨b, hbyte, hs⟩ := State.emitByte_spec hp (by omega) hck
    have hsucc := Ser.txIdx_succ (t := s.ser) (by omega)
    simp only [State.emits, hb, if_true, hs, Ser.advance_next (show s.ser.txIdx.toNat ≠ s.ser.lastIdx by omega)]
    rw [ih rfl (by exact hp) (by show (s.ser.txIdx + 1).toNat + k = s.ser.lastIdx; omega) (by omega)
      (fun _ => by show _ = s.ser.accAt cfg p (s.ser.txIdx + 1).toNat; rw [hsucc])]
    obtain ⟨hlt, hget⟩ := List.getElem?_eq_some_iff.mp hbyte
    have hd : (s.ser.frame cfg p).drop s.ser.txIdx.toNat
        = b :: (s.ser.frame cfg p).drop (s.ser.txIdx + 1).toNat := by
      rw [List.drop_eq_getElem_cons hlt, hget, hsucc]
    rw [hd]
    simp [Ser.sent, Ser.frame]

/-- R103 DRAIN of a frame in flight. -/
theorem State.drain_spec {cfg : Config} {s : State} {p : List Byte} (hb : s.ser.txState = .busy)
    (hp : s.ser.Loaded p) (hi : s.ser.txIdx.toNat ≤ s.ser.lastIdx)
    (hck : 1 ≤ s.ser.txIdx.toNat → s.ser.txCk = s.ser.accAt cfg p s.ser.txIdx.toNat) :
    s.drain cfg = .ok { s with
      ser := s.ser.sent cfg p, lineOut := s.lineOut ++ (s.ser.frame cfg p).drop s.ser.txIdx.toNat } := by
  have := s.ser.lastIdx_le
  exact State.emits_spec (s.ser.lastIdx - s.ser.txIdx.toNat) hb hp (by omega) (by omega) hck

theorem SerInv.sent {cfg : Config} {t : Ser} (h : SerInv cfg t) {p : List Byte} (hp : t.Loaded p) :
    SerInv cfg (t.sent cfg p) where
  txpWf := h.txpWf
  txpWithin := h.txpWithin
  ovfFull := h.ovfFull
  busyIdx := by simp [Ser.sent]
  idleIdx := fun _ => rfl
  busyDone := by simp [Ser.sent]
  loaded := ⟨p, hp, by simp [Ser.sent]⟩

/-- DRAIN keeps the serializer's invariants, does not fail, and touches SER and the outbound stream only. -/
theorem SerInv.drain {cfg : Config} {s : State} (h : SerInv cfg s.ser) :
    ∃ s', s.drain cfg = .ok s' ∧ SerInv cfg s'.ser ∧ s'.des = s.des := by
  by_cases hb : s.ser.txState = .busy
  · obtain ⟨p, hp, hck⟩ := h.loaded
    exact ⟨_, State.drain_spec hb hp (h.busyIdx hb) (hck hb), h.sent hp, rfl⟩
  · exact ⟨s, by simp [State.drain, State.emits, hb], h, rfl⟩

/-- R103: ENCODE keeps the serializer's invariants, whatever it is given. -/
theorem SerInv.load {cfg : Config} {s : State} (h : SerInv cfg s.ser) (c : Byte) (p : List Byte) :
    SerInv cfg (s.load c p).ser := by
  have h1 : SerInv cfg (s.txClear.txCommand c).ser := SerInv.txCommand (SerInv.txClear h) c
  have h2 : ∀ (q : List Byte) {u : State}, SerInv cfg u.ser → SerInv cfg (q.foldl State.txPush u).ser := by
    intro q
    induction q with
    | nil => exact fun hu => hu
    | cons d q ih => exact fun hu => ih (SerInv.txPush hu d)
  exact SerInv.txGo (h2 p h1)

/-- The load ops touch SER, SEQ, `rdata` only. -/
theorem State.load_des (s : State) (c : Byte) (p : List Byte) : (s.load c p).des = s.des := by
  have push : ∀ (u : State) (d : Byte), (u.txPush d).des = u.des := by
    intro u d; unfold State.txPush; split <;> [skip; split] <;> simp
  have pushes : ∀ (q : List Byte) (u : State), (q.foldl State.txPush u).des = u.des := by
    intro q
    induction q with
    | nil => exact fun _ => rfl
    | cons d q ih => exact fun u => (ih _).trans (push u d)
  have go : ∀ u : State, u.txGo.des = u.des := by
    intro u; unfold State.txGo; split <;> [skip; split] <;> simp
  have cmd : ∀ u : State, (u.txCommand c).des = u.des := by
    intro u; unfold State.txCommand; split <;> simp
  have clr : s.txClear.des = s.des := by unfold State.txClear; split <;> simp
  rw [State.load, go, pushes, cmd, clr]

end Sys2Proof.Machine
end

