-- ==== Sys2Proof/Laws/Exec.lean ====
section
/-! SUPPORT. Once per shared operation, everything it can do when it answers a next state; and that exec keeps
the invariants. -/

namespace Sys2Proof.Machine

@[simp] theorem orFault_eq_next {r : Except Fault State} {t : State} : orFault r = .next t ↔ r = .ok t := by
  cases r <;> simp [orFault]

/-! ### Reads -/

/-- A guarded read refuses with SeqError, or goes on. -/
theorem State.withResult_next {s t : State} {k : Result} (h : s.withResult k = .next t) :
    t = s.raise .seqError ∨ k = .next t := by
  unfold State.withResult at h
  split at h
  · exact .inr h
  · exact .inl (by simpa using h.symm)

theorem State.withIndex_next {s t : State} {ok : Bool} {k : Result} (h : s.withIndex ok k = .next t) :
    t = s.raise .idxError ∨ k = .next t := by
  unfold State.withIndex at h
  split at h
  · exact .inr h
  · exact .inl (by simpa using h.symm)

theorem State.readRxb_next {s t : State} {a : Nat} (h : s.readRxb a = .next t) : ∃ v, t = s.ret v := by
  unfold State.readRxb at h
  split at h
  · exact ⟨_, by simpa using h.symm⟩
  · cases h

theorem execRdcmd_next {s t : State} (h : execRdcmd s = .next t) : t = s.raise .seqError ∨ ∃ v, t = s.ret v :=
  (State.withResult_next h).imp id State.readRxb_next

theorem execRdplen_next {s t : State} (h : execRdplen s = .next t) : t = s.raise .seqError ∨ ∃ v, t = s.ret v :=
  (State.withResult_next h).imp id fun h => ⟨_, by simpa using h.symm⟩

theorem execRdnrec_next {s t : State} (h : execRdnrec s = .next t) : t = s.raise .seqError ∨ ∃ v, t = s.ret v :=
  (State.withResult_next h).imp id fun h => ⟨_, by simpa using h.symm⟩

theorem execRdpay_next {d : Byte} {s t : State} (h : execRdpay d s = .next t) :
    t = s.raise .seqError ∨ t = s.raise .idxError ∨ ∃ v, t = s.ret v :=
  (State.withResult_next h).imp id fun h => (State.withIndex_next h).imp id State.readRxb_next

theorem execRdrec_next {d : Byte} {s t : State} (h : execRdrec d s = .next t) :
    t = s.raise .seqError ∨ t = s.raise .idxError ∨ ∃ v, t = s.ret v :=
  (State.withResult_next h).imp id fun h => (State.withIndex_next h).imp id State.readRxb_next

theorem State.readReg_cases (s : State) (a : RegNo) : s.readReg a = s.raise .illegalOp ∨ ∃ v, s.readReg a = s.ret v := by
  unfold State.readReg
  split
  · exact .inr ⟨_, rfl⟩
  · exact .inl rfl

/-- R211. -/
theorem State.writeReg_cases (s : State) (a : RegNo) (d : Byte) :
    (a = 0 ∧ s.writeReg a d = { s with common := { s.common with ctrl := ctrlBits d }, rdata := 0x00 }) ∨
      (a = 2 ∧ s.writeReg a d = (s.clearErr d).ret 0x00) ∨
      (a ≠ 0 ∧ a ≠ 2 ∧ s.writeReg a d = s.raise .illegalOp) := by
  unfold State.writeReg
  split
  · rename_i h
    exact .inl ⟨BitVec.eq_of_toNat_eq (by simpa using h), rfl⟩
  · rename_i h
    exact .inr (.inl ⟨BitVec.eq_of_toNat_eq (by simpa using h), rfl⟩)
  · rename_i h0 h2
    exact .inr (.inr ⟨fun e => h0 (by rw [e]; rfl), fun e => h2 (by rw [e]; rfl), rfl⟩)

/-! ### The serializer -/

theorem State.txClear_cases (s : State) : s.txClear = s.raise .seqError ∨
    s.ser.txState = .idle ∧ s.txClear = { s with ser := { s.ser with txLen := 0, txOvf := false }, rdata := 0x00 } := by
  unfold State.txClear
  split
  · exact .inl rfl
  · exact .inr ⟨TxState.idle_of_ne ‹_›, rfl⟩

theorem State.txCommand_cases (s : State) (d : Byte) : s.txCommand d = s.raise .seqError ∨
    s.ser.txState = .idle ∧ s.txCommand d = { s with ser := { s.ser with txCmd := d }, rdata := 0x00 } := by
  unfold State.txCommand
  split
  · exact .inl rfl
  · exact .inr ⟨TxState.idle_of_ne ‹_›, rfl⟩

theorem State.txPush_cases (s : State) (d : Byte) : s.txPush d = s.raise .seqError ∨
    s.ser.txState = .idle ∧ (s.txPush d = s.raise .txOverflow ∨
      s.ser.txLen ≠ 255 ∧ s.txPush d = { s with
        ser := { s.ser with txp := s.ser.txp.store s.ser.storeAddr d, txLen := s.ser.txLen + 1 }
        rdata := 0x00 }) := by
  unfold State.txPush
  split
  · exact .inl rfl
  · refine .inr ⟨TxState.idle_of_ne ‹_›, ?_⟩
    split
    · exact .inl rfl
    · exact .inr ⟨‹_›, rfl⟩

theorem State.txGo_cases (s : State) : s.txGo = s.raise .seqError ∨
    s.ser.txState = .idle ∧ s.ser.txOvf = false ∧ s.txGo = { s with
      ser := { s.ser with txState := .busy, txIdx := 0, txDone := false }, rdata := 0x00 } := by
  unfold State.txGo
  split
  · exact .inl rfl
  · split
    · exact .inl rfl
    · rename_i hb ho
      exact .inr ⟨TxState.idle_of_ne hb, by simpa using ho, rfl⟩

theorem Ser.advance_loaded (t : Ser) : t.advance.txCmd = t.txCmd ∧ t.advance.txLen = t.txLen ∧
    t.advance.txOvf = t.txOvf ∧ t.advance.txp = t.txp := by
  unfold Ser.advance
  split <;> exact ⟨rfl, rfl, rfl, rfl⟩

/-- Everything EMIT can do. -/
theorem emitStep_next {cfg : Config} {s t : State} (h : emitStep cfg s = .next t) :
    s.ser.txState = .busy ∧ ∃ b acc, s.ser.nextByte cfg = .ok (b, acc) ∧
      t = { s with ser := { s.ser.advance with txCk := acc }, lineOut := s.lineOut ++ [b] } := by
  unfold emitStep at h
  split at h
  · exact ⟨‹_›, State.emitByte_next (orFault_eq_next.mp h)⟩
  · cases h

/-- Everything a burst of EMITs can do: SER but not the loaded command, and the outbound stream. -/
theorem State.emits_next {cfg : Config} : ∀ {fuel : Nat} {s t : State}, s.emits cfg fuel = .ok t →
    ∃ bs, t = { s with ser := t.ser, lineOut := s.lineOut ++ bs } ∧ t.ser.txCmd = s.ser.txCmd ∧
      t.ser.txLen = s.ser.txLen ∧ t.ser.txOvf = s.ser.txOvf ∧ t.ser.txp = s.ser.txp := by
  intro fuel
  induction fuel with
  | zero =>
    intro s t h
    obtain rfl := Except.ok.inj h
    exact ⟨[], by simp, rfl, rfl, rfl, rfl⟩
  | succ fuel ih =>
    intro s t h
    simp only [State.emits] at h
    split at h
    · split at h
      · rename_i u hu
        obtain ⟨b, acc, -, rfl⟩ := State.emitByte_next hu
        obtain ⟨bs, e, h1, h2, h3, h4⟩ := ih h
        obtain ⟨a1, a2, a3, a4⟩ := s.ser.advance_loaded
        exact ⟨b :: bs, by rw [e]; simp, h1.trans a1, h2.trans a2, h3.trans a3, h4.trans a4⟩
      · cases h
    · obtain rfl := Except.ok.inj h
      exact ⟨[], by simp, rfl, rfl, rfl, rfl⟩

/-- Everything ENCODE can do outside the loaded command: SEQ may be set, `rdata` is 0x00; TXP cells at or
past the number of parameters are not written. -/
theorem State.load_frame (s : State) (c : Byte) (p : List Byte) :
    (s.load c p).des = s.des ∧ (s.load c p).lineOut = s.lineOut ∧ (s.load c p).lineIn = s.lineIn ∧
      (s.load c p).schedule = s.schedule ∧
      (s.load c p).common = { s.common with errSeq := (s.load c p).common.errSeq } ∧
      ∀ a, p.length ≤ a → (s.load c p).ser.txp.cell a = s.ser.txp.cell a := by
  by_cases hb : s.ser.txState = .busy
  · rw [State.load_busy c p hb]
    exact ⟨rfl, rfl, rfl, rfl, rfl, fun _ _ => rfl⟩
  · -- in T_IDLE the pushes store at TXP 0, 1, .. and at most raise TxOverflow
    have push : ∀ (q : List Byte) (u : State), u.ser.txState = .idle →
        (q.foldl State.txPush u).ser.txState = .idle ∧
        (q.foldl State.txPush u).des = u.des ∧ (q.foldl State.txPush u).lineOut = u.lineOut ∧
        (q.foldl State.txPush u).lineIn = u.lineIn ∧ (q.foldl State.txPush u).schedule = u.schedule ∧
        (q.foldl State.txPush u).common = u.common ∧
        ∀ a, u.ser.txLen.toNat + q.length ≤ a → (q.foldl State.txPush u).ser.txp.cell a = u.ser.txp.cell a := by
      intro q
      induction q with
      | nil => exact fun u hu => ⟨hu, rfl, rfl, rfl, rfl, rfl, fun _ _ => rfl⟩
      | cons d q ih =>
        intro u hu
        rw [List.foldl_cons]
        have hstep : (u.txPush d).ser.txState = .idle ∧ (u.txPush d).des = u.des ∧
            (u.txPush d).lineOut = u.lineOut ∧ (u.txPush d).lineIn = u.lineIn ∧
            (u.txPush d).schedule = u.schedule ∧ (u.txPush d).common = u.common ∧
            (u.txPush d).ser.txLen.toNat ≤ u.ser.txLen.toNat + 1 ∧
            ∀ a, u.ser.txLen.toNat + 1 ≤ a → (u.txPush d).ser.txp.cell a = u.ser.txp.cell a := by
          unfold State.txPush
          rw [if_neg (by simp [hu])]
          split
          · exact ⟨hu, rfl, rfl, rfl, rfl, rfl, by simp, fun _ _ => rfl⟩
          · rename_i hn
            refine ⟨hu, rfl, rfl, rfl, rfl, rfl, by simp only [txLen_succ hn]; omega, fun a ha => ?_⟩
            exact Memory.cell_store_ne _ _ (by simp only [Ser.storeAddr]; omega)
        obtain ⟨h1, h2, h3, h4, h5, h6, h7, h8⟩ := hstep
        obtain ⟨i1, i2, i3, i4, i5, i6, i7⟩ := ih _ h1
        refine ⟨i1, i2.trans h2, i3.trans h3, i4.trans h4, i5.trans h5, i6.trans h6, fun a ha => ?_⟩
        simp only [List.length_cons] at ha
        rw [i7 a (by omega), h8 a (by omega)]
    have h1 : s.txClear.txCommand c = { s with
        ser := { s.ser with txLen := 0, txOvf := false, txCmd := c }, rdata := 0x00 } := by
      simp [State.txClear, State.txCommand, TxState.idle_of_ne hb]
    have hp := push p (s.txClear.txCommand c) (by rw [h1]; exact TxState.idle_of_ne hb)
    rw [State.load]
    generalize p.foldl State.txPush (s.txClear.txCommand c) = u at hp ⊢
    rw [h1] at hp
    obtain ⟨-, p2, p3, p4, p5, p6, p7⟩ := hp
    have hcell : ∀ a, p.length ≤ a → u.ser.txp.cell a = s.ser.txp.cell a := fun a ha => p7 a (by simpa using ha)
    have hc : u.common = s.common := p6
    rcases u.txGo_cases with e | ⟨-, -, e⟩
    · rw [e]
      exact ⟨p2, p3, p4, p5, by simp [hc], hcell⟩
    · rw [e]
      exact ⟨p2, p3, p4, p5, by simp [hc], hcell⟩

/-! ### The deserializer -/

/-- Everything a successful receive can do: one store at `rx_cnt`, and never `rec_sel`. -/
theorem Des.receive_next {cfg : Config} {c : Common} {x : Byte} {r r' : Des} (h : r.receive cfg c x = .ok r') :
    r.storeAddr < cfg.rxMax ∧ r'.rxb = r.rxb.store r.storeAddr x ∧ r'.rxCnt = r.rxCnt + 1 ∧
      r'.recSel = r.recSel ∧ (r'.rxState = r.rxState ∨ r'.rxState = .done) := by
  unfold Des.receive at h
  split at h
  · rename_i u hu
    unfold Des.storeByte at hu
    split at hu
    · rename_i acc m hm
      obtain ⟨ha, rfl⟩ := Memory.storeIn_next hm
      obtain rfl := Except.ok.inj hu
      split at h
      · obtain ⟨h1, h2, -, -, h5, h6⟩ := Des.close_next h
        exact ⟨ha, h6, h2, h5, .inr h1⟩
      · obtain rfl := Except.ok.inj h
        exact ⟨ha, rfl, rfl, rfl, .inl rfl⟩
    · cases hu
    · cases hu
  · cases h

/-- Everything RXBYTE can do. -/
theorem State.rxByte_next {cfg : Config} {b : Byte} {s t : State} (h : s.rxByte cfg b = .ok t) :
    (s.des.rxState ≠ .recv ∧ t = s.recordIn b false) ∨
      (s.des.rxState = .recv ∧ ∃ r, s.des.receive cfg s.common b = .ok r ∧
        t = ({ s with des := r } : State).recordIn b true) := by
  unfold State.rxByte at h
  split at h
  · split at h
    · rename_i hr _ r hrec
      exact .inr ⟨hr, r, hrec, by simpa using h.symm⟩
    · cases h
  · exact .inl ⟨‹_›, by simpa using h.symm⟩

/-- Everything RXEND can do. -/
theorem State.rxEnd_next {cfg : Config} {s t : State} (h : s.rxEnd cfg = .ok t) :
    (s.des.rxState ≠ .recv ∧ t = s.ret 0x00) ∨
      (s.des.rxState = .recv ∧ ∃ r, s.des.close cfg s.common s.des.rxCnt.toNat = .ok r ∧
        t = { s with des := r, rdata := 0x00 }) := by
  unfold State.rxEnd at h
  split at h
  · split at h
    · rename_i hr _ r hrec
      exact .inr ⟨hr, r, hrec, by simpa using h.symm⟩
    · cases h
  · exact .inl ⟨‹_›, by simpa using h.symm⟩

/-- Everything FEED can do: DES and the inbound history; stores at `rx_cnt`, `rx_cnt + 1`, .. only. -/
theorem State.feed_next {cfg : Config} (bs : List Byte) : ∀ {s t : State}, s.feed cfg bs = .ok t →
    t = { s with des := t.des, lineIn := t.lineIn } ∧ t.des.recSel = s.des.recSel ∧
      (s.des.rxState ≠ .recv → t.des = s.des) ∧
      ∀ a, a < s.des.storeAddr ∨ s.des.storeAddr + bs.length ≤ a → t.des.rxb.cell a = s.des.rxb.cell a := by
  induction bs with
  | nil =>
    intro s t h
    obtain rfl := Except.ok.inj h
    exact ⟨rfl, rfl, fun _ => rfl, fun _ _ => rfl⟩
  | cons x bs ih =>
    intro s t h
    simp only [State.feed] at h
    split at h
    · rename_i u hu
      obtain ⟨e, h1, h2, h3⟩ := ih h
      rcases State.rxByte_next hu with ⟨hr, rfl⟩ | ⟨hr, r, hrec, rfl⟩
      · refine ⟨by rw [e]; rfl, h1, h2, fun a ha => h3 a ?_⟩
        simp only [List.length_cons] at ha
        show a < s.des.storeAddr ∨ s.des.storeAddr + bs.length ≤ a
        omega
      · obtain ⟨ha, hm, hc, hs, hst⟩ := Des.receive_next hrec
        refine ⟨by rw [e]; rfl, h1.trans hs, fun hn => absurd hr hn, fun a h' => ?_⟩
        simp only [List.length_cons] at h'
        have hsucc : r.storeAddr = s.des.storeAddr + 1 := by
          simp only [Des.storeAddr, hc]
          exact rxCnt_succ ha
        rw [h3 a (by show a < r.storeAddr ∨ r.storeAddr + bs.length ≤ a; omega)]
        show r.rxb.cell a = _
        rw [hm, Memory.cell_store_ne _ _ (by omega)]
    · cases h

/-- A successful receive closes the window, or leaves the state of DES, the result, its cause and the flags. -/
theorem Des.receive_result {cfg : Config} {c : Common} {x : Byte} {r r' : Des} (h : r.receive cfg c x = .ok r') :
    r'.rxState = .done ∨ (r'.rxState = r.rxState ∧ r'.rxRes = r.rxRes ∧ r'.rxCause = r.rxCause ∧
      r'.ckOk = r.ckOk ∧ r'.lenOk = r.lenOk) := by
  unfold Des.receive at h
  split at h
  · rename_i u hu
    unfold Des.storeByte at hu
    split at hu
    · obtain rfl := Except.ok.inj hu
      split at h
      · exact .inl (Des.close_next h).1
      · obtain rfl := Except.ok.inj h
        exact .inr ⟨rfl, rfl, rfl, rfl, rfl⟩
    · cases hu
    · cases hu
  · cases h

/-- RXBYTE closes the open window, or leaves the state of DES, the result, its cause and the flags. -/
theorem State.rxByte_result {cfg : Config} {b : Byte} {s t : State} (h : s.rxByte cfg b = .ok t) :
    (s.des.rxState = .recv ∧ t.des.rxState = .done) ∨
      (t.des.rxState = s.des.rxState ∧ t.des.rxRes = s.des.rxRes ∧ t.des.rxCause = s.des.rxCause ∧
        t.des.ckOk = s.des.ckOk ∧ t.des.lenOk = s.des.lenOk) := by
  rcases State.rxByte_next h with ⟨-, rfl⟩ | ⟨hr, r, hrec, rfl⟩
  · exact .inr ⟨rfl, rfl, rfl, rfl, rfl⟩
  · exact (Des.receive_result hrec).imp (⟨hr, ·⟩) id

/-- The same of FEED, over all its bytes. -/
theorem State.feed_result {cfg : Config} (bs : List Byte) : ∀ {s t : State}, s.feed cfg bs = .ok t →
    (s.des.rxState = .recv ∧ t.des.rxState = .done) ∨
      (t.des.rxState = s.des.rxState ∧ t.des.rxRes = s.des.rxRes ∧ t.des.rxCause = s.des.rxCause ∧
        t.des.ckOk = s.des.ckOk ∧ t.des.lenOk = s.des.lenOk) := by
  induction bs with
  | nil =>
    intro s t h
    obtain rfl := Except.ok.inj h
    exact .inr ⟨rfl, rfl, rfl, rfl, rfl⟩
  | cons x bs ih =>
    intro s t h
    simp only [State.feed] at h
    split at h
    · rename_i u hu
      rcases State.rxByte_result hu with ⟨h1, h2⟩ | ⟨h1, h2, h3, h4, h5⟩
      · exact .inl ⟨h1, by rw [(State.feed_next bs h).2.2.1 (by simp [h2]), h2]⟩
      · rw [← h1, ← h2, ← h3, ← h4, ← h5]
        exact ih h
    · cases h

/-! ### exec keeps the invariants -/

/-- A guarded read of a state that meets the invariants completes. -/
theorem Inv.resultRead {s : State} (h : Inv s) {k : Result}
    (hk : s.des.resultValid = true → ∃ t, k = .next t ∧ Inv t) : ∃ t, s.withResult k = .next t ∧ Inv t := by
  unfold State.withResult
  split
  · exact hk ‹_›
  · exact ⟨_, rfl, h.ser, by simpa using h.des⟩

theorem Inv.ret {s : State} (h : Inv s) (v : Byte) : Inv (s.ret v) := ⟨h.ser, h.des⟩

theorem Inv.raise {s : State} (h : Inv s) {e : ErrKind} (he : e ≠ .txOverflow) : Inv (s.raise e) := by
  cases e
  · exact absurd rfl he
  · exact ⟨h.ser, h.des⟩
  · exact ⟨h.ser, h.des⟩
  · exact ⟨h.ser, h.des⟩

/-- Every instruction but an EMIT that is not enabled completes, and keeps the invariants. -/
theorem Inv.exec {s : State} (h : Inv s) (i : Instr) (hi : i = .emit → s.ser.txState = .busy) :
    ∃ t, Machine.exec i s = .next t ∧ Inv t := by
  obtain ⟨b, hw, -⟩ := h.des.window
  have readAt : ∀ a, a < b.length → ∃ t, s.readRxb a = .next t ∧ Inv t := fun a ha =>
    ⟨_, State.readRxb_window hw ha, h.ret _⟩
  have hlen := hw.1
  cases i with
  | nop => exact ⟨_, rfl, h.ret _⟩
  | txclr => exact ⟨_, rfl, SerInv.txClear h.ser, by
      rcases s.txClear_cases with e | ⟨-, e⟩ <;> rw [e] <;> simpa using h.des⟩
  | txcmd d => exact ⟨_, rfl, SerInv.txCommand h.ser d, by
      rcases s.txCommand_cases d with e | ⟨-, e⟩ <;> rw [e] <;> simpa using h.des⟩
  | txpush d => exact ⟨_, rfl, SerInv.txPush h.ser d, by
      rcases s.txPush_cases d with e | ⟨-, e | ⟨-, e⟩⟩ <;> rw [e] <;> simpa using h.des⟩
  | txgo => exact ⟨_, rfl, SerInv.txGo h.ser, by
      rcases s.txGo_cases with e | ⟨-, -, e⟩ <;> rw [e] <;> simpa using h.des⟩
  | rxarm => exact ⟨_, rfl, h.ser, h.des.arm⟩
  | rxend =>
    obtain ⟨t, ht, hd, hs⟩ := h.des.rxEnd
    exact ⟨t, orFault_eq_next.mpr ht, hs ▸ h.ser, hd⟩
  | rdcmd => exact h.resultRead fun hv => readAt _ (by
      have := (h.des.resultValid hv).2.2; simp only [cmdAddr, minFrame] at *; omega)
  | rdplen => exact h.resultRead fun _ => ⟨_, rfl, h.ret _⟩
  | rdpay d =>
    exact h.resultRead fun hv => by
      unfold State.withIndex
      split
      · rename_i hp
        have hp := of_decide_eq_true hp
        simp only [Des.plen, minFrame] at hp
        exact readAt _ (by simp only [payAddr, hdrLen]; omega)
      · exact ⟨_, rfl, h.raise (by simp)⟩
  | recsel d => exact ⟨_, rfl, h.ser, h.des.select d⟩
  | rdrec d =>
    exact h.resultRead fun hv => by
      unfold State.withIndex
      split
      · rename_i hp
        simp only [Des.recIndexOk, Bool.and_eq_true] at hp
        have h1 := of_decide_eq_true hp.1
        have h2 := of_decide_eq_true hp.2
        simp only [Des.nrec, Des.plen, minFrame, discStride] at h1 h2
        exact readAt _ (by simp only [Des.recAddr, hdrLen, discStride]; omega)
      · exact ⟨_, rfl, h.raise (by simp)⟩
  | rdnrec => exact h.resultRead fun _ => ⟨_, rfl, h.ret _⟩
  | wrreg a d =>
    refine ⟨_, rfl, ?_⟩
    rcases s.writeReg_cases a d with ⟨-, e⟩ | ⟨-, e⟩ | ⟨-, -, e⟩ <;> rw [e] <;> exact ⟨h.ser, h.des⟩
  | rdreg a =>
    refine ⟨_, rfl, ?_⟩
    rcases s.readReg_cases a with e | ⟨v, e⟩ <;> rw [e] <;> exact ⟨h.ser, h.des⟩
  | srst => exact ⟨_, rfl, h.ser.resetRegisters, h.des.resetRegisters⟩
  | emit =>
    obtain ⟨t, ht⟩ := h.ser.emitByte_ok (hi rfl)
    obtain ⟨_, _, -, e⟩ := State.emitByte_next ht
    refine ⟨t, ?_, SerInv.emitByte h.ser (hi rfl) ht, by rw [e]; exact h.des⟩
    show emitStep _ s = _
    simp [emitStep, hi rfl, ht]
  | rxbyte x =>
    obtain ⟨t, ht, hd, hs⟩ := h.des.rxByte x
    exact ⟨t, orFault_eq_next.mpr ht, hs ▸ h.ser, hd⟩
  | reset => exact ⟨_, rfl, h.ser.resetRegisters, h.des.resetRegisters⟩
  | cmdFrame c p =>
    obtain ⟨t, ht, hs, hd⟩ := SerInv.drain (SerInv.load h.ser c p)
    exact ⟨t, orFault_eq_next.mpr ht, hs, by rw [hd, State.load_des]; exact h.des⟩
  | rspFrame sync version c len pl k =>
    obtain ⟨t, ht, hd, hs⟩ := h.des.feed ([sync, version, c, len] ++ pl ++ [k])
    exact ⟨t, orFault_eq_next.mpr ht, hs ▸ h.ser, hd⟩
  | discRecord la s0 s1 =>
    obtain ⟨t, ht, hd, hs⟩ := h.des.feed (la ++ [s0, s1])
    exact ⟨t, orFault_eq_next.mpr ht, hs ▸ h.ser, hd⟩

theorem Inv.withSchedule {s : State} (h : Inv s) (l : List Stimulus) : Inv { s with schedule := l } := ⟨h.ser, h.des⟩

/-- Whatever an instruction answers as a next state meets the invariants. -/
theorem Inv.of_exec {s t : State} {i : Instr} (h : Inv s) (e : Machine.exec i s = .next t) : Inv t := by
  by_cases hi : i = .emit → s.ser.txState = .busy
  · obtain ⟨u, hu, hk⟩ := h.exec i hi
    rw [hu] at e
    cases e
    exact hk
  · obtain ⟨rfl, hb⟩ := Classical.not_imp.mp hi
    exact absurd (emitStep_next e).1 hb

end Sys2Proof.Machine
end

