-- ==== Sys2Proof/Laws/PerInstr.lean ====
section
/-! SUPPORT. The family RoundTrip, one lemma per constructor of Instr: under every configuration the decoder
reads an encoded well-formed instruction back (30_encoding.md R86, R90, R94, R98, R101). -/

namespace Sys2Proof.Laws.RoundTrip

/-- Decoding the encoding of a well-formed instruction gives it back. -/
def Statement (i : Instr) : Prop :=
  ∀ cfg : Config, i.wellFormed = true → decode cfg (encode cfg i) = .ok i

theorem nop : Statement .nop := fun _ _ => by simp [decode, encode, decodeHost_opWord, decodeFields, plainOp, orReject]
theorem txclr : Statement .txclr := fun _ _ => by simp [decode, encode, decodeHost_opWord, decodeFields, plainOp, orReject]
theorem txcmd (d : Byte) : Statement (.txcmd d) := fun _ _ => by simp [decode, encode, decodeHost_opWord, decodeFields, dataOp, orReject]
theorem txpush (d : Byte) : Statement (.txpush d) := fun _ _ => by simp [decode, encode, decodeHost_opWord, decodeFields, dataOp, orReject]
theorem txgo : Statement .txgo := fun _ _ => by simp [decode, encode, decodeHost_opWord, decodeFields, plainOp, orReject]
theorem rxarm : Statement .rxarm := fun _ _ => by simp [decode, encode, decodeHost_opWord, decodeFields, plainOp, orReject]
theorem rxend : Statement .rxend := fun _ _ => by simp [decode, encode, decodeHost_opWord, decodeFields, plainOp, orReject]
theorem rdcmd : Statement .rdcmd := fun _ _ => by simp [decode, encode, decodeHost_opWord, decodeFields, plainOp, orReject]
theorem rdplen : Statement .rdplen := fun _ _ => by simp [decode, encode, decodeHost_opWord, decodeFields, plainOp, orReject]
theorem rdpay (d : Byte) : Statement (.rdpay d) := fun _ _ => by simp [decode, encode, decodeHost_opWord, decodeFields, dataOp, orReject]
theorem recsel (d : Byte) : Statement (.recsel d) := fun _ _ => by simp [decode, encode, decodeHost_opWord, decodeFields, dataOp, orReject]
theorem rdrec (d : Byte) : Statement (.rdrec d) := fun _ _ => by simp [decode, encode, decodeHost_opWord, decodeFields, dataOp, orReject]
theorem rdnrec : Statement .rdnrec := fun _ _ => by simp [decode, encode, decodeHost_opWord, decodeFields, plainOp, orReject]
theorem wrreg (a : RegNo) (d : Byte) : Statement (.wrreg a d) := fun _ _ => by simp [decode, encode, decodeHost_opWord, decodeFields, orReject]
theorem rdreg (a : RegNo) : Statement (.rdreg a) := fun _ _ => by simp [decode, encode, decodeHost_opWord, decodeFields, regOp, orReject]
theorem srst : Statement .srst := fun _ _ => by simp [decode, encode, decodeHost_opWord, decodeFields, plainOp, orReject]
theorem emit : Statement .emit := fun _ _ => rfl
theorem rxbyte (b : Byte) : Statement (.rxbyte b) := fun _ _ => rfl
theorem reset : Statement .reset := fun _ _ => rfl

theorem cmdFrame (c : Byte) (params : List Byte) : Statement (.cmdFrame c params) := fun cfg h => by
  have hp : params.length ≤ txPMax := of_decide_eq_true h
  simp [decode, encode, decodeCommandFrame_commandFrame cfg c hp, orReject]

theorem rspFrame (sync version command len : Byte) (payload : List Byte) (checksum : Byte) :
    Statement (.rspFrame sync version command len payload checksum) := fun cfg h => by
  have hp : payload.length < 256 := Nat.lt_succ_of_le (of_decide_eq_true h)
  simp [decode, encode, decodeResponseFrame, orReject, maxFrame, hdrLen, hp]

theorem discRecord (longAddr : List Byte) (s0 s1 : Byte) : Statement (.discRecord longAddr s0 s1) := fun cfg h => by
  have hl : longAddr.length = longLen := of_decide_eq_true h
  simp [decode, encode, decodeDiscoveryRecord, orReject, ← hl]

end Sys2Proof.Laws.RoundTrip
end

