-- ==== Sys2Proof/Tests/Slice0.lean ====
section
/-! SUPPORT. The model's own tests: the well-formedness smoke, decoding of written-out words, one-step tests
whose expected values are 95_test_vectors.md's, and a witness for the hypotheses of each statement. -/

namespace Sys2Proof.Tests

open Sys2Proof.Machine

/-! ### The test configurations of 40_checksum_accumulator.md R124 -/

def tcSum : Config :=
  { syncByte := 0xA5, versionByte := 0x01, ckInit := 0x00, ckStep := fun a b => a + b, ckFinal := fun a => a
    rxSlack := 255, cmdDiscover := 0x30 }
def tcXor : Config := { tcSum with ckInit := 0xFF, ckStep := fun a b => a ^^^ b }
def tcNeg : Config := { tcSum with ckFinal := fun a => -a }

/-! ### Small states -/

/-- SER sending the frame of `p` at position `i`. -/
def sending (i : Position) (p : List Byte) : State :=
  { State.reset with ser := { Ser.reset with
      txState := .busy, txIdx := i, txLen := BitVec.ofNat 8 p.length, txp := Memory.storeAll [] 0 p } }
/-- SER idle with `p` loaded. -/
def loaded (p : List Byte) : State :=
  { State.reset with ser := { Ser.reset with
      txLen := BitVec.ofNat 8 p.length, txp := Memory.storeAll [] 0 p } }
/-- SER idle with 255 parameters and the overflow flag. -/
def overflowed : State := { State.reset with ser := { Ser.reset with txLen := 255, txOvf := true } }
/-- An open window that holds `b`. -/
def receiving (b : List Byte) : State :=
  { State.reset with des := { Des.reset with
      rxState := .recv, rxCnt := BitVec.ofNat 9 b.length, rxb := Memory.storeAll [] 0 b } }
/-- A window `b` closed with a valid result, and record `r` selected. -/
def received (b : List Byte) (r : Byte) : State :=
  { State.reset with des := { Des.reset with
      rxState := .done, rxRes := .ok, rxCnt := BitVec.ofNat 9 b.length, recSel := r
      rxb := Memory.storeAll [] 0 b } }
/-- A window just opened on the device. -/
def armed : State := { State.reset with des := Des.reset.arm Config.device }
/-- CTRL set. -/
def withCtrl (c : BitVec 2) : State := { State.reset with common := { Common.reset with ctrl := c } }

/-- The good window of V-D3. -/
def good : List Byte := [0xA5, 0x01, 0x21, 0x03, 0x01, 0x02, 0x03, 0x2B]
/-- Record A of V-R1. -/
def recordA : List Byte := [0xAA, 0xBB, 0xCC, 0xDD, 0xEE, 0xFF, 0x00, 0x11, 0x00, 0x01]
/-- The response of V-R1 with record A. -/
def oneRecord : List Byte := [0xA5, 0x01, 0x30, 0x0A] ++ recordA ++ [0x48]

theorem loaded_sending (i : Position) {p : List Byte} (h : p.length < 256) : (sending i p).ser.Loaded p :=
  ⟨by simp [sending]; omega, Memory.storeAll_holds _ _⟩
theorem loaded_loaded {p : List Byte} (h : p.length < 256) : (loaded p).ser.Loaded p :=
  ⟨by simp [loaded]; omega, Memory.storeAll_holds _ _⟩
theorem window_receiving {b : List Byte} (h : b.length < 512) : (receiving b).des.Window b :=
  ⟨by simp [receiving]; omega, Memory.storeAll_holds _ _⟩
theorem window_received {b : List Byte} (r : Byte) (h : b.length < 512) : (received b r).des.Window b :=
  ⟨by simp [received]; omega, Memory.storeAll_holds _ _⟩

theorem inv_reset : Inv State.reset := ⟨SerInv.reset _, DesInv.reset _⟩
theorem inv_sending : Inv (sending 0 []) := ⟨SerInv.txGo (s := State.reset) inv_reset.ser, inv_reset.des⟩
theorem inv_armed : Inv armed := ⟨inv_reset.ser, inv_reset.des.arm⟩
theorem inv_withCtrl (c : BitVec 2) : Inv (withCtrl c) := ⟨inv_reset.ser, inv_reset.des⟩

/-! ### WellFormed: what is not well formed is refused -/

theorem not_wellFormed_cmdFrame {p : List Byte} (c : Byte) (h : p.length = 256) :
    (Instr.cmdFrame c p).wellFormed = false := decide_eq_false (by rw [h]; decide)
theorem not_wellFormed_rspFrame {p : List Byte} (a b c d e : Byte) (h : p.length = 256) :
    (Instr.rspFrame a b c d p e).wellFormed = false := decide_eq_false (by rw [h]; decide)
/-- R86: 256 parameters. -/
theorem test_illFormed_cmdFrame : (Instr.cmdFrame 0x42 (List.replicate 256 0x00)).wellFormed = false :=
  not_wellFormed_cmdFrame _ List.length_replicate
/-- R85: 256 payload bytes make a frame of 261. -/
theorem test_illFormed_rspFrame :
    (Instr.rspFrame 0xA5 0x01 0x42 0xFF (List.replicate 256 0x00) 0x00).wellFormed = false :=
  not_wellFormed_rspFrame _ _ _ _ _ List.length_replicate
/-- R94: a long address of seven bytes. -/
theorem test_illFormed_discRecord : (Instr.discRecord (List.replicate 7 0) 0 0).wellFormed = false := by decide

/-! ### Decoding written-out words (V-O1, R98) -/

theorem test_decode_nop : decodeHost 0x0000 = some .nop := by decide
theorem test_decode_txclr : decodeHost 0x1000 = some .txclr := by decide
theorem test_decode_txcmd : decodeHost 0x2021 = some (.txcmd 0x21) := by decide
theorem test_decode_txpush : decodeHost 0x30FF = some (.txpush 0xFF) := by decide
theorem test_decode_txgo : decodeHost 0x4000 = some .txgo := by decide
theorem test_decode_rxarm : decodeHost 0x5000 = some .rxarm := by decide
theorem test_decode_rxend : decodeHost 0x6000 = some .rxend := by decide
theorem test_decode_rdcmd : decodeHost 0x7000 = some .rdcmd := by decide
theorem test_decode_rdplen : decodeHost 0x8000 = some .rdplen := by decide
theorem test_decode_rdpay : decodeHost 0x90FE = some (.rdpay 254) := by decide
theorem test_decode_recsel : decodeHost 0xA018 = some (.recsel 24) := by decide
theorem test_decode_rdrec : decodeHost 0xB009 = some (.rdrec 9) := by decide
theorem test_decode_rdnrec : decodeHost 0xC000 = some .rdnrec := by decide
theorem test_decode_wrreg : decodeHost 0xD20E = some (.wrreg 2 0x0E) := by decide
theorem test_decode_rdreg : decodeHost 0xE800 = some (.rdreg 8) := by decide
theorem test_decode_srst : decodeHost 0xF000 = some .srst := by decide
/-- R101. -/
theorem test_decode_emit : decode tcSum .ser = .ok .emit := rfl
theorem test_decode_rxbyte : decode tcSum (.line 0xA5) = .ok (.rxbyte 0xA5) := rfl
/-- R260. -/
theorem test_decode_reset : decode tcSum .env = .ok .reset := rfl
/-- R86, V-E1. -/
theorem test_decode_cmdFrame : decode tcSum (.commandFrame good) = .ok (.cmdFrame 0x21 [0x01, 0x02, 0x03]) := rfl
/-- R86: a wrong checksum is no command frame. -/
theorem test_decode_cmdFrame_badChecksum :
    decode tcSum (.commandFrame [0xA5, 0x01, 0x21, 0x03, 0x01, 0x02, 0x03, 0x2C]) = .error .notCommandFrame := rfl
/-- R90, V-D3: sync, length and checksum are not compared with anything. -/
theorem test_decode_rspFrame : decode tcSum (.responseFrame [0x00, 0x01, 0x21, 0x04, 0x01, 0x02, 0x03, 0x2B]) =
    .ok (.rspFrame 0x00 0x01 0x21 0x04 [0x01, 0x02, 0x03] 0x2B) := rfl
/-- R91. -/
theorem test_decode_rspFrame_short : decode tcSum (.responseFrame [0xA5, 0x01, 0x21, 0x00]) =
    .error .notResponseFrame := rfl
/-- R94, S5. -/
theorem test_decode_discRecord : decode tcSum (.discoveryRecord recordA) =
    .ok (.discRecord [0xAA, 0xBB, 0xCC, 0xDD, 0xEE, 0xFF, 0x00, 0x11] 0x00 0x01) := rfl
/-- V-O2. -/
theorem test_reserved_words : [0x0001, 0x0100, 0x1001, 0x2121, 0x3F00, 0x4100, 0x50FF, 0x6001, 0x7010, 0x8800,
    0x9100, 0xA201, 0xBF09, 0xC001, 0xE001, 0xE1FF, 0xF001, 0xFFFF].map decodeHost =
    List.replicate 18 none := by decide
theorem test_decodeTableWord : decodeTableWord 16 0xD003 = some (.wrreg 0 0x03) := rfl
/-- The first byte of a table row's bits is the lowest. -/
theorem test_decodeTableWord_record : decodeTableWord 80 0x0100_1100_FFEE_DDCC_BBAA =
    some (.discRecord [0xAA, 0xBB, 0xCC, 0xDD, 0xEE, 0xFF, 0x00, 0x11] 0x00 0x01) := rfl
theorem test_withFetchWord : step (State.reset.withFetchWord 16 0x2021) =
    .next { State.reset with ser := { Ser.reset with txCmd := 0x21 } } := rfl

/-! ### The checksum and level F -/

/-- V-C1. -/
theorem test_ck : [tcSum, tcXor, tcNeg].map (fun c => LevelF.ck c [0x01, 0x21, 0x03, 0x01, 0x02, 0x03]) =
    [0x2B, 0xDC, 0xD5] := by decide
/-- V-C3. -/
theorem test_checksumOk : [tcSum, tcXor, tcNeg].map (fun c => LevelF.checksumOk c good) =
    [true, false, false] := by decide
/-- V-E1. -/
theorem test_encode : LevelF.encode tcXor 0x30 [0x80, 0x80] = some [0xA5, 0x01, 0x30, 0x02, 0x80, 0x80, 0xCC] := rfl
/-- V-D1, n = 6. -/
theorem test_levelF_decode : (LevelF.decode [0xA5, 0x01, 0x21, 0x00, 0x22, 0x99]).toOption =
    some (0x21, [0x22]) := rfl
/-- S5. -/
theorem test_decodeDiscovery : LevelF.decodeDiscovery (recordA ++ [0x00, 0x12]) =
    [{ long := [0xAA, 0xBB, 0xCC, 0xDD, 0xEE, 0xFF, 0x00, 0x11], short := [0x00, 0x01] }] := by decide
/-- V-R2. -/
theorem test_shortNumeric : LevelF.shortNumeric 0xEF 0xBE = 0xBEEF := by decide

/-! ### One step each -/

theorem test_nop : exec .nop { State.reset with rdata := 0x55 } = .next State.reset := rfl
/-- V-E3. -/
theorem test_txclr : overflowed.txClear.errView = 0x00 ∧ overflowed.txClear.ser.txLen = 0 := by decide
theorem test_txclr_busy : exec .txclr (sending 3 [0x80, 0x80]) = .next ((sending 3 [0x80, 0x80]).raise .seqError) := rfl
theorem test_txcmd : ((loaded [1]).txCommand 0x10).ser.txCmd = 0x10 := by decide
theorem test_txcmd_busy : ((sending 3 [0x80, 0x80]).txCommand 0x31).errView = 0x02 := by decide
theorem test_txpush : ((loaded [1]).txPush 0x02).ser.txp = [(0, 1), (1, 2)] := by decide
/-- V-E3: the 256th push. -/
theorem test_txpush_overflow : ({ overflowed with ser := { overflowed.ser with txOvf := false } } : State).txPush 0xFF =
    overflowed := by decide
theorem test_txgo : (loaded [1]).txGo.statusView = 0x01 := by decide
/-- V-O4. -/
theorem test_txgo_overflow : overflowed.txGo.errView = 0x03 := by decide
/-- V-E2: the third byte, with the accumulator before and after. -/
theorem test_emit : ({ (sending 2 [1, 2, 3]).ser with txCmd := 0x21, txCk := 0x01 } : Ser).nextByte tcSum =
    .ok (0x21, 0x22) := rfl
/-- V-E2: the last byte. -/
theorem test_emit_last : ((({ sending 7 [1, 2, 3] with ser := { (sending 7 [1, 2, 3]).ser with txCk := 0x2B } } : State).emitByte
    tcSum).toOption.map (fun s => (s.lineOut, s.ser.txIdx, s.statusView))) = some ([0x2B], 0, 0x02) := rfl
theorem test_rxarm : (Des.reset.arm tcXor).rxCk = 0xFF ∧ (Des.reset.arm tcXor).rxState = .recv := by decide
/-- V-D2: absorption runs one byte behind. -/
theorem test_rxbyte : ((({ (receiving [0xA5, 0x01, 0x21]).des with rxCk := 0x01 } : Des).receive tcSum Common.reset
    0x02).toOption.map (fun r => (r.rxCnt, r.rxCk))) = some (4, 0x22) := rfl
/-- V-D4: the byte that fills RXB closes the window; here RX_MAX = 5. -/
theorem test_rxbyte_full : ((({ (receiving [0xA5, 0x01, 0x10, 0x00]).des with rxCk := 0x11 } : Des).receive
    { tcSum with rxSlack := 0 } Common.reset 0x11).toOption.map
    (fun r => (r.causeView, r.rxState, r.ckOk, r.lenOk))) = some (0x08, .done, true, true) := rfl
/-- V-D3, row "both bad", CTRL = 3: LENGTH before CHECKSUM. -/
theorem test_rxend : ((({ (receiving [0xA5, 0x01, 0x21, 0x04, 0x01, 0x02, 0x03, 0x2B]).des with rxCk := 0x2C } : Des).close
    tcSum { Common.reset with ctrl := 3 } 8).toOption.map Des.causeView) = some 0x02 := rfl
/-- V-D1, n = 0. -/
theorem test_rxend_empty : (((receiving []).rxEnd tcSum).toOption.map (fun s => (s.statusView, s.des.causeView))) =
    some (0x28, 0x05) := rfl
theorem test_rdcmd : exec .rdcmd (received good 0) = .next ((received good 0).ret 0x21) := rfl
/-- V-D5. -/
theorem test_rdcmd_noResult : exec .rdcmd State.reset = .next (State.reset.raise .seqError) := rfl
theorem test_rdplen : exec .rdplen (received good 0) = .next ((received good 0).ret 0x03) := rfl
theorem test_rdpay : exec (.rdpay 2) (received good 0) = .next ((received good 0).ret 0x03) := rfl
/-- V-D5. -/
theorem test_rdpay_index : exec (.rdpay 3) (received good 0) = .next ((received good 0).raise .idxError) := rfl
theorem test_recsel : exec (.recsel 24) State.reset = .next { State.reset with des := { Des.reset with recSel := 24 } } := rfl
/-- V-R1. -/
theorem test_rdrec : exec (.rdrec 9) (received oneRecord 0) = .next ((received oneRecord 0).ret 0x01) := rfl
theorem test_rdrec_index : exec (.rdrec 0) (received oneRecord 1) = .next ((received oneRecord 1).raise .idxError) := rfl
theorem test_rdnrec : exec .rdnrec (received oneRecord 0) = .next ((received oneRecord 0).ret 1) := rfl
/-- V-O3. -/
theorem test_wrreg_ctrl : (State.reset.writeReg 0 0xFF).common.ctrlView = 0x03 := by decide
/-- V-O3: `WRREG 2, 0x08` with ERR = 0x0E. -/
theorem test_wrreg_err : (({ State.reset with common := { Common.reset with
    errSeq := true, errIdx := true, errIllop := true } } : State).writeReg 2 0x08).errView = 0x06 := by decide
theorem test_rdreg : ((withCtrl 3).readReg 0).rdata = 0x03 := by decide
theorem test_rdreg_reserved : (State.reset.readReg 9).errView = 0x08 := by decide
/-- V-Z1. -/
theorem test_srst : exec .srst (sending 5 [0x80, 0x80]) =
    .next { State.reset with ser := { Ser.reset with txp := [(0, 0x80), (1, 0x80)] } } := rfl
theorem test_reset : exec .reset { State.reset with rdata := 0x55 } = .next { State.reset with rdata := 0x55 } := rfl
/-- V-E1: ENCODE then DRAIN. -/
theorem test_cmdFrame : ((((State.reset.load 0x21 [1, 2, 3]).drain tcSum).toOption.map State.lineOut)) = some good := rfl
/-- V-D4: FEED of a whole frame and one byte too many, with RX_MAX = 8. -/
theorem test_rspFrame : (((({ State.reset with des := Des.reset.arm tcSum } : State).feed { tcSum with rxSlack := 3 }
    (good ++ [0x77])).toOption.map (fun s => (s.statusView, s.des.causeView, s.des.rxCk)))) =
    some (0xD8, 0x08, 0x2B) := rfl
theorem test_discRecord : (((({ State.reset with des := Des.reset.arm tcSum } : State).feed tcSum
    recordA).toOption.map (fun s => (s.des.rxCnt, s.statusView)))) = some (10, 0x04) := rfl

/-! ### Witnesses: concrete states and operands that meet the hypotheses of the statements -/

/-- Five zero bytes whose last is the device's checksum of their region, or differs from it by `x`. -/
def shortest (len x : Byte) : List Byte := [0x00, 0x00, 0x00, len, LevelF.ck Config.device [0x00, 0x00, len] + x]

/-- Bytes delivered in a window on the device, with CTRL set. -/
def deliver (b : List Byte) : List Instr := b.map .rxbyte

theorem execAll_completes (is : List Instr) : ∀ {s : State}, Inv s → (∀ i ∈ is, i ≠ .emit) →
    ∃ t, execAll is s = .next t := by
  induction is with
  | nil => exact fun _ _ => ⟨_, rfl⟩
  | cons i is ih =>
    intro s h hne
    obtain ⟨u, hu, hi⟩ := h.exec i (fun e => absurd e (hne i (List.mem_cons_self ..)))
    obtain ⟨t, ht⟩ := ih hi (fun j hj => hne j (List.mem_cons_of_mem _ hj))
    exact ⟨t, by simp only [execAll, hu, ht]⟩

/-- LineOutOnlyGrows and the statements FrameOf… : every instruction completes in this state, EMIT too. -/
theorem witness_completes (i : Instr) : ∃ t, exec i (sending 0 []) = .next t :=
  let ⟨t, h, _⟩ := inv_sending.exec i (fun _ => rfl)
  ⟨t, h⟩

theorem witness_ResetRegisterValues : (0 : RegNo).toNat ≤ 8 ∧ (8 : RegNo).toNat ≤ 8 := by decide
theorem witness_StepKeepsInvariants : Inv (sending 0 []) ∧ ∃ t, step (sending 0 []) = .next t :=
  ⟨inv_sending, let ⟨t, h⟩ := witness_completes .emit; ⟨t, h⟩⟩
theorem witness_EveryStepCompletes : Inv (sending 0 []) ∧
    (Instr.emit = .emit → (sending 0 []).ser.txState = .busy) := ⟨inv_sending, fun _ => rfl⟩
theorem witness_StartedFrameIsFinished : Inv (sending 0 []) ∧ (sending 0 []).schedule = [] ∧
    (sending 0 []).ser.txState = .busy ∧ (sending 0 []).ser.Loaded [] :=
  ⟨inv_sending, rfl, rfl, loaded_sending 0 (by decide)⟩
theorem witness_DecodeReadsEncode : (Instr.cmdFrame 0x21 [1, 2, 3]).wellFormed = true ∧
    (Instr.rspFrame 0 0 0 0 [] 0).wellFormed = true ∧
    (Instr.discRecord (List.replicate 8 0) 0 1).wellFormed = true := by decide
theorem witness_EncodeReadsDecode : decode tcSum (.host 0x2021) = .ok (.txcmd 0x21) ∧
    decode tcSum (.responseFrame good) = .ok (.rspFrame 0xA5 0x01 0x21 0x03 [0x01, 0x02, 0x03] 0x2B) := ⟨rfl, rfl⟩
theorem witness_ReservedWordRaisesIllegalOp :
    (State.reset.present (.host 0x0001)).schedule = [.host 0x0001] ∧
    (∀ row ∈ opcodeMap, (0x0001 : OpWord) &&& row.2 ≠ row.1) ∧
    (∀ row ∈ opcodeMap, (0xFFFF : OpWord) &&& row.2 ≠ row.1) := ⟨rfl, by simp [opcodeMap], by simp [opcodeMap]⟩
theorem witness_StepRunsDecodedInstruction :
    (State.reset.present (.line 0xA5)).schedule = [.line 0xA5] ∧
    decode Config.device (.line 0xA5) = .ok (.rxbyte 0xA5) := ⟨rfl, rfl⟩
theorem witness_UnscheduledStep : (sending 0 []).schedule = [] ∧ (sending 0 []).ser.txState = .busy ∧
    State.reset.schedule = [] ∧ State.reset.ser.txState = .idle := ⟨rfl, rfl, rfl, rfl⟩
theorem witness_registerNumbers : (0 : RegNo) = 0 ∧ (2 : RegNo) = 2 ∧ ((1 : RegNo) ≠ 0 ∧ (1 : RegNo) ≠ 2) ∧
    9 ≤ (9 : RegNo).toNat ∧ 9 ≤ (15 : RegNo).toNat ∧ ¬9 ≤ (8 : RegNo).toNat := by decide
theorem witness_ResetAbandonsFrame : (∃ t, exec .srst (sending 5 [0x80, 0x80]) = .next t) ∧
    ∃ t, exec .reset (sending 5 [0x80, 0x80]) = .next t := ⟨⟨_, rfl⟩, ⟨_, rfl⟩⟩
/-- TXCLR, TXCMD, TXPUSH and TXGO: every clause. -/
theorem witness_loadOps : (sending 0 []).ser.txState = .busy ∧ (loaded [1]).ser.txState = .idle ∧
    (loaded [1]).ser.txLen.toNat ≠ 255 ∧ (loaded [1]).ser.txOvf = false ∧
    overflowed.ser.txState = .idle ∧ overflowed.ser.txLen.toNat = 255 ∧ overflowed.ser.txOvf = true :=
  ⟨rfl, rfl, by decide, rfl, rfl, rfl, rfl⟩
/-- Every frame position of a one-parameter frame. -/
theorem witness_EmitSendsNextByte :
    ∀ i : Position, i.toNat ≤ 5 → (sending i [1]).ser.txState = .busy ∧ (sending i [1]).ser.Loaded [1] ∧
      (sending i [1]).ser.txIdx.toNat ≤ 4 + (sending i [1]).ser.txLen.toNat :=
  fun i h => ⟨rfl, loaded_sending i (by decide), h⟩
/-- V-E3's first row, with steps of the other agents in between. -/
theorem witness_SerializerSendsEncode : Inv State.reset ∧ State.reset.ser.txState = .idle ∧
    State.reset.ser.txOvf = false ∧ State.reset.ser.Loaded [] ∧
    (∃ F, LevelF.encode Config.device State.reset.ser.txCmd [] = some F) ∧
    (∀ i ∈ [Instr.emit, .txclr, .emit, .rxbyte 0x77, .emit, .emit], i = .emit ∨ besideSending i = true) ∧
    emitCount [Instr.emit, .txclr, .emit, .rxbyte 0x77, .emit, .emit] = 4 + ([] : List Byte).length :=
  ⟨inv_reset, rfl, rfl, loaded_loaded (p := []) (by decide), ⟨_, rfl⟩,
    by simp [besideSending, isHostOp, deliveredByte], rfl⟩
theorem witness_LoadedCommandKeptWhileBusy : (sending 0 []).ser.txState = .busy ∧ Instr.emit ≠ .srst ∧
    Instr.emit ≠ .reset ∧ ∃ t, exec .emit (sending 0 []) = .next t := ⟨rfl, by decide, by decide, witness_completes _⟩
theorem witness_OverflowPoisonsUntilTxclr : overflowed.ser.txOvf = true ∧ Instr.nop ≠ .txclr ∧ Instr.nop ≠ .srst ∧
    Instr.nop ≠ .reset ∧ (∀ c p, Instr.nop ≠ .cmdFrame c p) ∧ ∃ t, exec .nop overflowed = .next t :=
  ⟨rfl, by decide, by decide, by decide, by simp, ⟨_, rfl⟩⟩
/-- RXBYTE outside a window, in one with room, with a previous byte to absorb, and one that fills RXB. -/
theorem witness_RxbyteStoresInOpenWindow : State.reset.des.rxState ≠ .recv ∧
    (∀ b : List Byte, (receiving b).des.rxState = .recv) ∧ (receiving [1]).des.Window [1] ∧
    (receiving [1, 2]).des.Window [1, 2] ∧ [1, 2].length < Config.device.rxMax ∧
    [1, 2].length + 1 ≠ Config.device.rxMax ∧
    (receiving (List.replicate (Config.device.rxMax - 1) 0)).des.Window
      (List.replicate (Config.device.rxMax - 1) 0) ∧
    (List.replicate (Config.device.rxMax - 1) (0 : Byte)).length + 1 = Config.device.rxMax := by
  have h1 := le_rxMax Config.device
  have h2 := rxMax_le Config.device
  exact ⟨by decide, fun _ => rfl, window_receiving (by decide), window_receiving (by decide),
    by simp only [List.length_cons, List.length_nil]; omega,
    by simp only [List.length_cons, List.length_nil]; omega,
    window_receiving (by rw [List.length_replicate]; omega), by rw [List.length_replicate]; omega⟩
theorem witness_RxendClosesOpenWindow : State.reset.des.rxState ≠ .recv ∧ (receiving good).des.rxState = .recv ∧
    (receiving good).des.Window good ∧ (receiving []).des.rxState = .recv ∧ (receiving []).des.rxCnt = 0 :=
  ⟨by decide, rfl, window_receiving (by decide), rfl, rfl⟩
/-- A window of 4 bytes, one of 5, CTRL set and clear, and the accumulator of an empty window. -/
theorem witness_CloseWindowDecides : (receiving [0, 0, 0, 0]).des.Window [0, 0, 0, 0] ∧
    (receiving [0, 0, 0, 0, 0]).des.Window [0, 0, 0, 0, 0] ∧ (withCtrl 3).common.ctrl.getLsbD 1 = true ∧
    (withCtrl 3).common.ctrl.getLsbD 0 = true ∧ (withCtrl 0).common.ctrl.getLsbD 1 = false ∧
    (withCtrl 0).common.ctrl.getLsbD 0 = false ∧ armed.des.Window [] ∧
    armed.des.rxCk = LevelF.ckFold Config.device (LevelF.region []) :=
  ⟨window_receiving (by decide), window_receiving (by decide), rfl, rfl, rfl, rfl, ⟨rfl, Memory.holds_nil _⟩, rfl⟩
/-- RDCMD, RDPLEN, RDPAY, RDREC and RDNREC: no result; a window of 5 bytes; the last payload index and the one
after it; the last record and offset and the ones after them; the longest window. -/
theorem witness_resultReads :
    ¬(State.reset.des.rxState = .done ∧ State.reset.des.rxRes = .ok) ∧
    (∀ b r, (received b r).des.rxState = .done ∧ (received b r).des.rxRes = .ok) ∧
    (received [0, 0, 0, 0, 0] 0).des.Window [0, 0, 0, 0, 0] ∧ (received [0, 0, 0, 0, 0] 0).des.rxCnt.toNat = 5 ∧
    (received good 0).des.rxCnt.toNat - 5 ≤ (3 : Byte).toNat ∧ (2 : Byte).toNat < (received good 0).des.rxCnt.toNat - 5 ∧
    (received good 0).des.Window good ∧ (received oneRecord 0).des.Window oneRecord ∧
    (received oneRecord 0).des.recSel.toNat < ((received oneRecord 0).des.rxCnt.toNat - 5) / 10 ∧
    ((received oneRecord 1).des.rxCnt.toNat - 5) / 10 ≤ (received oneRecord 1).des.recSel.toNat ∧
    (9 : Byte).toNat < 10 ∧ 10 ≤ (10 : Byte).toNat ∧ oneRecord.length ≤ 260 ∧
    (received (List.replicate 260 0) 0).des.rxCnt.toNat = 260 := by
  refine ⟨by decide, fun _ _ => ⟨rfl, rfl⟩, window_received _ (by decide), rfl, by decide, by decide,
    window_received _ (by decide), window_received _ (by decide), by decide, by decide, by decide, by decide, by decide, ?_⟩
  simp only [received, List.length_replicate]
  decide
/-- Empty, valid, bad length and bad checksum windows, each with the CTRL that decides. -/
theorem witness_DeserializerReportsDecode (c : BitVec 2) (len x : Byte) : Inv (withCtrl c) ∧
    (∀ i ∈ deliver (shortest len x), besideWindow i = true ∨ (deliveredByte i).isSome = true) ∧
    (deliveredBytes (deliver (shortest len x))).take Config.device.rxMax = shortest len x ∧
    (∃ t, execAll (.rxarm :: (deliver (shortest len x) ++ [.rxend])) (withCtrl c) = .next t) ∧
    (∃ t, execAll (.rxarm :: ([] ++ [.rxend])) (withCtrl c) = .next t) ∧
    (∃ v P, LevelF.decode (shortest len x) = .ok (v, P)) ∧ LevelF.decode [] = .error .malformedFrame ∧
    LevelF.lengthOk (shortest 1 x) = false ∧ LevelF.lengthOk (shortest 0 x) = true ∧
    LevelF.checksumOk Config.device (shortest len 1) = false ∧
    LevelF.checksumOk Config.device (shortest len 0) = true := by
  have h1 := le_rxMax Config.device
  refine ⟨inv_withCtrl c, ?_, ?_, ?_, ?_, ⟨_, _, rfl⟩, rfl, rfl, rfl, ?_, ?_⟩
  · simp [deliver, deliveredByte]
  · have : deliveredBytes (deliver (shortest len x)) = shortest len x := rfl
    rw [this, List.take_of_length_le (by simpa [shortest] using h1)]
  · exact execAll_completes _ (inv_withCtrl c) (by
      simp only [deliver, List.mem_cons, List.mem_append, List.mem_map, List.not_mem_nil, or_false]
      rintro i (rfl | ⟨_, _, rfl⟩ | rfl) <;> simp)
  · exact execAll_completes _ (inv_withCtrl c) (by simp)
  · simp [LevelF.checksumOk, shortest, LevelF.region, LevelF.slice]
  · simp [LevelF.checksumOk, shortest, LevelF.region, LevelF.slice, minFrame]
theorem witness_ResultChangesOnlyAtClose : (∃ t, exec .rxend State.reset = .next t ∧
      t.des.rxState = State.reset.des.rxState) ∧
    (∃ t, exec .rxend armed = .next t ∧ t.des.rxState ≠ armed.des.rxState) ∧
    State.reset.des.rxState ≠ .recv ∧ armed.des.rxState = .recv ∧ (∃ t, exec .nop armed = .next t) ∧
    Instr.nop ≠ .rxend ∧ Instr.nop ≠ .rxarm ∧ Instr.nop ≠ .srst ∧ (∀ d, Instr.nop ≠ .wrreg 0 d) :=
  ⟨⟨_, rfl, rfl⟩, ⟨_, rfl, by decide⟩, by decide, rfl, ⟨_, rfl⟩, by decide, by decide, by decide, by simp⟩
theorem witness_RecordViewIsDecodeDiscovery : (received oneRecord 0).des.rxState = .done ∧
    (received oneRecord 0).des.rxRes = .ok ∧ (received oneRecord 0).des.Window oneRecord ∧ oneRecord.length ≤ 260 ∧
    LevelF.decode oneRecord = .ok (0x30, recordA) ∧ (∃ rec, (LevelF.decodeDiscovery recordA)[(0 : Byte).toNat]? = some rec) ∧
    (7 : Byte).toNat < 8 ∧ 8 ≤ (8 : Byte).toNat ∧ (9 : Byte).toNat < 10 :=
  ⟨rfl, rfl, window_received _ (by decide), by decide, rfl, ⟨_, rfl⟩, by decide, by decide, by decide⟩
theorem witness_EncodeLaysOutFrame : (List.replicate 255 (0 : Byte)).length ≤ 255 ∧
    255 < (List.replicate 256 (0 : Byte)).length := by rw [List.length_replicate, List.length_replicate]; decide
theorem witness_DecodeUndoesEncode : LevelF.encode tcSum 0x21 [0x01, 0x02, 0x03] = some good := rfl
theorem witness_DiscoveryRecordsOfPayload : 0 < recordA.length / 10 ∧ ¬1 < (recordA ++ [0x00]).length / 10 := by decide
theorem witness_CommandFrameSendsEncode : State.reset.ser.txState = .idle ∧
    ∃ F, LevelF.encode Config.device 0x21 [1, 2, 3] = some F := ⟨rfl, ⟨_, rfl⟩⟩
theorem witness_CommandFrameWhileBusyIsRefused : Inv (sending 0 []) ∧ (sending 0 []).ser.txState = .busy ∧
    (sending 0 []).ser.Loaded [] := ⟨inv_sending, rfl, loaded_sending 0 (by decide)⟩
theorem witness_WireBytesDroppedOutsideWindow : State.reset.des.rxState ≠ .recv := by decide
/-- Bytes that fit, a frame that fills RXB, and a frame with one byte too many. -/
theorem witness_WireBytesEnterWindow : Inv armed ∧ armed.des.rxState = .recv ∧ armed.des.Window [] ∧
    ([] : List Byte).length + ([] ++ [0, 1] : List Byte).length < Config.device.rxMax ∧
    ([0, 0, 0, 0] ++ List.replicate (Config.device.rxMax - 5) 0 ++ [0] : List Byte).length = Config.device.rxMax ∧
    Config.device.rxMax ≤ ([0, 0, 0, 0] ++ List.replicate (Config.device.rxMax - 4) 0 ++ [0] : List Byte).length := by
  have h1 := le_rxMax Config.device
  refine ⟨inv_armed, rfl, ⟨rfl, Memory.holds_nil _⟩, by simp; omega, by simp; omega, by simp; omega⟩
theorem witness_ResponseFrameIsDecoded : State.reset.common.ctrl = 0 ∧
    5 + ([] : List Byte).length ≤ Config.device.rxMax := ⟨rfl, le_rxMax _⟩
/-- R69: repeated ops, one refused and one accepted. -/
theorem witness_RepeatedOpLeavesSameState : repeatable .txclr = true ∧ repeatable .rdcmd = true ∧
    (∃ t, exec .txclr (sending 0 []) = .next t) ∧ ∃ t, exec .rdcmd State.reset = .next t :=
  ⟨rfl, rfl, ⟨_, rfl⟩, ⟨_, rfl⟩⟩
/-- One op for each of the four errors. -/
theorem witness_ErrorsArePrecise :
    (isHostOp (.txpush 0) = true ∧ (loaded [1]).ser.txOvf = false ∧ (overflowed.txPush 0).ser.txOvf = true) ∧
    (State.reset.common.errSeq = false ∧ exec .rdcmd State.reset = .next (State.reset.raise .seqError)) ∧
    ((received good 0).common.errIdx = false ∧
      exec (.rdpay 3) (received good 0) = .next ((received good 0).raise .idxError)) ∧
    (State.reset.common.errIllop = false ∧ exec (.wrreg 1 0) State.reset = .next (State.reset.raise .illegalOp)) :=
  ⟨⟨rfl, rfl, rfl⟩, ⟨rfl, rfl⟩, ⟨rfl, rfl⟩, ⟨rfl, rfl⟩⟩
/-- Two states that agree in DES and CTRL only, and two that agree in SER only. -/
theorem witness_SerAndDesAreIndependent : State.reset.des = (sending 0 []).des ∧
    State.reset.common.ctrl = (sending 0 []).common.ctrl ∧ State.reset.ser = (withCtrl 3).ser ∧
    (∃ t, exec .rxend State.reset = .next t) ∧ (∃ t, exec .rxend (sending 0 []) = .next t) ∧
    ∃ t, exec .rxend (withCtrl 3) = .next t :=
  ⟨rfl, rfl, rfl, ⟨_, rfl⟩, ⟨_, rfl⟩, ⟨_, rfl⟩⟩

end Sys2Proof.Tests
end

section
/-! PROOFS. Scope (00_scope.md): what `raise` does to the bits of ERR. -/

namespace Sys2Proof.Machine

/-- R40: the byte of ERR with the given bits ILLOP, IDX, SEQ and TXOVF. -/
def errByte (illop idx seq txovf : Bool) : Byte :=
  0#4 ++ BitVec.ofBool illop ++ BitVec.ofBool idx ++ BitVec.ofBool seq ++ BitVec.ofBool txovf

theorem State.errView_eq (s : State) :
    s.errView = errByte s.common.errIllop s.common.errIdx s.common.errSeq s.ser.txOvf := rfl

theorem errByte_or (i x q t i' x' q' t' : Bool) :
    errByte i x q t ||| errByte i' x' q' t' = errByte (i || i') (x || x') (q || q') (t || t') := by
  -- `BitVec.or_append` splits the OR only at the width as `errByte` appends it
  change (_ ||| _ : BitVec (4 + 1 + 1 + 1 + 1)) = _
  simp only [errByte, BitVec.or_append, BitVec.or_self, BitVec.ofBool_or_ofBool]

/-- R40: the byte of ERR in which only the bit of this error is set. -/
def ErrKind.mask (e : ErrKind) : Byte :=
  errByte (e == .illegalOp) (e == .idxError) (e == .seqError) (e == .txOverflow)

theorem State.raise_errIllop (s : State) (e : ErrKind) :
    (s.raise e).common.errIllop = (s.common.errIllop || e == .illegalOp) := by
  cases e <;> simp

theorem State.raise_errIdx (s : State) (e : ErrKind) :
    (s.raise e).common.errIdx = (s.common.errIdx || e == .idxError) := by
  cases e <;> simp

theorem State.raise_errSeq (s : State) (e : ErrKind) :
    (s.raise e).common.errSeq = (s.common.errSeq || e == .seqError) := by
  cases e <;> simp

theorem State.raise_txOvf (s : State) (e : ErrKind) :
    (s.raise e).ser.txOvf = (s.ser.txOvf || e == .txOverflow) := by
  cases e <;> simp

/-- R15, R40: a raise ORs the bit of its error into ERR, so the other bits stay and a set bit stays set. -/
theorem State.raise_errView (s : State) (e : ErrKind) : (s.raise e).errView = s.errView ||| e.mask := by
  rw [s.errView_eq, ErrKind.mask, errByte_or, State.errView_eq, s.raise_errIllop, s.raise_errIdx,
    s.raise_errSeq, s.raise_txOvf]

end Sys2Proof.Machine

namespace Sys2Proof.Proofs
open Sys2Proof.Machine

/-- Settles O13: the next state is the error's own arm of `raise`, and ERR gains the mask of that error. -/
theorem raiseSetsOneStickyBit : Obligations.RaiseSetsOneStickyBit := fun s =>
  ⟨⟨rfl, s.raise_errView .txOverflow⟩, ⟨rfl, s.raise_errView .seqError⟩,
    ⟨rfl, s.raise_errView .idxError⟩, ⟨rfl, s.raise_errView .illegalOp⟩⟩

end Sys2Proof.Proofs
end

section
/-! PROOFS. State (10_state.md): what reset and every step make of the registers, and the bits of the views. -/

namespace Sys2Proof.Machine

/-! ### One step -/

/-- R71, R142, R214: everything a step can do when it answers a next state. -/
theorem step_next {s t : State} (h : step s = .next t) :
    t = s ∨ exec .emit s = .next t ∨
      ∃ rest, t = ({ s with schedule := rest } : State).raise .illegalOp ∨
        ∃ i, exec i { s with schedule := rest } = .next t := by
  unfold step State.fetch at h
  split at h
  · unfold idleStep at h
    split at h
    · exact .inr (.inl h)
    · exact .inl (by simpa using h.symm)
  · rename_i e s' hf
    split at hf
    · cases hf
    · rename_i rest _
      obtain ⟨rfl, rfl⟩ := Prod.mk.inj (Option.some.inj hf)
      refine .inr (.inr ⟨rest, ?_⟩)
      split at h
      · exact .inr ⟨_, h⟩
      · rename_i r _
        cases r with
        | reservedWord w => exact .inl (by simpa [rejectStep] using h.symm)
        | notCommandFrame => cases h
        | notResponseFrame => cases h
        | notDiscoveryRecord => cases h

/-- R46, R75: whatever a step answers as a next state meets the invariants. -/
theorem Inv.step {s t : State} (hs : Inv s) (h : Machine.step s = .next t) : Inv t := by
  rcases step_next h with rfl | h | ⟨rest, rfl | ⟨i, h⟩⟩
  · exact hs
  · exact hs.of_exec h
  · exact (hs.withSchedule rest).raise (by simp)
  · exact (hs.withSchedule rest).of_exec h

/-! ### What each instruction can do to the two units -/

/-- R163, R168: the window of DES closes, or its state, the result, the cause and both flags stay. -/
def Des.ClosesOrKeeps (r r' : Des) : Prop :=
  (r.rxState = .recv ∧ r'.rxState = .done) ∨
    (r'.rxState = r.rxState ∧ r'.rxRes = r.rxRes ∧ r'.rxCause = r.rxCause ∧
      r'.ckOk = r.ckOk ∧ r'.lenOk = r.lenOk)

theorem Des.ClosesOrKeeps.refl (r : Des) : r.ClosesOrKeeps r := .inr ⟨rfl, rfl, rfl, rfl, rfl⟩

/-- R161, R162, R103: the instructions that read or close an open window. -/
def actsOnWindow : Instr → Bool
  | .rxend => true
  | .rxbyte _ => true
  | .rspFrame _ _ _ _ _ _ => true
  | .discRecord _ _ _ => true
  | _ => false

/-- The next states an instruction can answer, by the units it may write; `exec_effect` ties it to `exec`. -/
inductive Effect (s : State) : Instr → State → Prop
  /-- NOP, the reads, WRREG but of CTRL, and every refused host op: error bits and `rdata` only. -/
  | answer {i : Instr} (c : Common) (v : Byte) (hi : isHostOp i = true) (hc : c.ctrl = s.common.ctrl) :
      Effect s i { s with common := c, rdata := v }
  /-- WRREG 0. -/
  | setCtrl (d : Byte) (c : Common) : Effect s (.wrreg 0 d) { s with common := c, rdata := 0x00 }
  /-- A load op in T_IDLE. -/
  | load {i : Instr} (u : Ser) (hi : isHostOp i = true) (hidle : s.ser.txState = .idle) :
      Effect s i { s with ser := u, rdata := 0x00 }
  /-- EMIT. -/
  | emit (b acc : Byte) :
      Effect s .emit { s with ser := { s.ser.advance with txCk := acc }, lineOut := s.lineOut ++ [b] }
  /-- CMD_FRAME; in T_BUSY its load ops are refused. -/
  | frame (c : Byte) (p : List Byte) (u : Ser) (m : Common) (v : Byte) (bs : List Byte)
      (hm : m.ctrl = s.common.ctrl)
      (hbusy : s.ser.txState = .busy →
        u.txCmd = s.ser.txCmd ∧ u.txLen = s.ser.txLen ∧ u.txOvf = s.ser.txOvf ∧ u.txp = s.ser.txp) :
      Effect s (.cmdFrame c p) { s with ser := u, common := m, rdata := v, lineOut := s.lineOut ++ bs }
  /-- RXARM. -/
  | arm : Effect s .rxarm { s with des := s.des.arm Config.device, rdata := 0x00 }
  /-- RECSEL. -/
  | select (d : Byte) : Effect s (.recsel d) { s with des := { s.des with recSel := d }, rdata := 0x00 }
  /-- RXEND, RXBYTE and the wire bursts that feed DES. -/
  | window {i : Instr} (r : Des) (l : List Delivery) (v : Byte) (hi : actsOnWindow i = true)
      (hr : s.des.ClosesOrKeeps r) (hclosed : s.des.rxState ≠ .recv → r = s.des) :
      Effect s i { s with des := r, lineIn := l, rdata := v }
  /-- SRST and the reset event. -/
  | reset {i : Instr} (v : Byte) (hi : i = .srst ∨ i = .reset) :
      Effect s i { s.resetRegisters with rdata := v }

/-- A raise that touches no register of SER is an answer. -/
theorem Effect.raise {i : Instr} (s : State) (hi : isHostOp i = true) {e : ErrKind} (he : e ≠ .txOverflow) :
    Effect s i (s.raise e) := by
  cases e with
  | txOverflow => exact absurd rfl he
  | seqError => exact .answer _ _ hi rfl
  | idxError => exact .answer _ _ hi rfl
  | illegalOp => exact .answer _ _ hi rfl

/-- What the indexed reads of the result can do. -/
theorem Effect.of_indexedRead {i : Instr} {s t : State} (hi : isHostOp i = true)
    (h : t = s.raise .seqError ∨ t = s.raise .idxError ∨ ∃ v, t = s.ret v) : Effect s i t := by
  rcases h with rfl | rfl | ⟨v, rfl⟩
  · exact .raise s hi (by simp)
  · exact .raise s hi (by simp)
  · exact .answer _ v hi rfl

/-- What the reads of the result that need no index can do. -/
theorem Effect.of_read {i : Instr} {s t : State} (hi : isHostOp i = true)
    (h : t = s.raise .seqError ∨ ∃ v, t = s.ret v) : Effect s i t := .of_indexedRead hi (h.imp_right .inr)

theorem Effect.txClear (s : State) : Effect s .txclr s.txClear := by
  rcases s.txClear_cases with e | ⟨hidle, e⟩ <;> rw [e]
  · exact .raise s rfl (by simp)
  · exact .load _ rfl hidle

theorem Effect.txCommand (s : State) (d : Byte) : Effect s (.txcmd d) (s.txCommand d) := by
  rcases s.txCommand_cases d with e | ⟨hidle, e⟩ <;> rw [e]
  · exact .raise s rfl (by simp)
  · exact .load _ rfl hidle

theorem Effect.txPush (s : State) (d : Byte) : Effect s (.txpush d) (s.txPush d) := by
  rcases s.txPush_cases d with e | ⟨hidle, e | ⟨-, e⟩⟩ <;> rw [e]
  · exact .raise s rfl (by simp)
  · exact .load _ rfl hidle
  · exact .load _ rfl hidle

theorem Effect.txGo (s : State) : Effect s .txgo s.txGo := by
  rcases s.txGo_cases with e | ⟨hidle, -, e⟩ <;> rw [e]
  · exact .raise s rfl (by simp)
  · exact .load _ rfl hidle

theorem Effect.writeReg (s : State) (a : RegNo) (d : Byte) : Effect s (.wrreg a d) (s.writeReg a d) := by
  rcases s.writeReg_cases a d with ⟨rfl, e⟩ | ⟨-, e⟩ | ⟨-, -, e⟩ <;> rw [e]
  · exact .setCtrl d _
  · exact .answer _ _ rfl rfl
  · exact .raise s rfl (by simp)

theorem Effect.readReg (s : State) (a : RegNo) : Effect s (.rdreg a) (s.readReg a) := by
  rcases s.readReg_cases a with e | ⟨v, e⟩ <;> rw [e]
  · exact .raise s rfl (by simp)
  · exact .answer _ v rfl rfl

/-- R103: ENCODE leaves DES alone, and in T_BUSY the loaded command too; DRAIN only sends. -/
theorem Effect.burst {s t : State} {c : Byte} {p : List Byte} {cfg : Config}
    (h : (s.load c p).drain cfg = .ok t) : Effect s (.cmdFrame c p) t := by
  obtain ⟨bs, e, hcmd, hlen, hovf, htxp⟩ := State.emits_next h
  obtain ⟨hdes, hout, hin, hsch, hcommon, -⟩ := s.load_frame c p
  have ht : t = { s with
      ser := t.ser, common := t.common, rdata := t.rdata, lineOut := s.lineOut ++ bs } := by
    rw [e, hdes, hout, hin, hsch]
  have hm : t.common.ctrl = s.common.ctrl := by rw [e, hcommon]
  rw [ht]
  refine .frame c p _ _ _ bs hm fun hb => ?_
  have hser : (s.load c p).ser = s.ser := by rw [State.load_busy c p hb, State.raise_seqError_ser]
  rw [hser] at hcmd hlen hovf htxp
  exact ⟨hcmd, hlen, hovf, htxp⟩

theorem Effect.rxEnd {s t : State} {cfg : Config} (h : s.rxEnd cfg = .ok t) : Effect s .rxend t := by
  rcases State.rxEnd_next h with ⟨-, rfl⟩ | ⟨hr, r, hclose, rfl⟩
  · exact .window _ _ _ rfl (.refl _) fun _ => rfl
  · exact .window r _ _ rfl (.inl ⟨hr, (Des.close_next hclose).1⟩) fun hn => absurd hr hn

/-- R103: FEED, one byte or many. -/
theorem Effect.feed {i : Instr} {s t : State} {cfg : Config} {bs : List Byte} (hi : actsOnWindow i = true)
    (h : s.feed cfg bs = .ok t) : Effect s i t := by
  obtain ⟨e, -, hclosed, -⟩ := State.feed_next bs h
  have hr : s.des.ClosesOrKeeps t.des := State.feed_result bs h
  rw [e]
  exact .window _ _ _ hi hr hclosed

theorem State.feed_singleton (cfg : Config) (s : State) (b : Byte) : s.feed cfg [b] = s.rxByte cfg b := by
  simp only [State.feed]
  split <;> simp [*]

/-- An instruction that always completes has the effect of the state it answers. -/
theorem Effect.of_next {i : Instr} {s u t : State} (h : (.next u : Result) = .next t) (hu : Effect s i u) :
    Effect s i t := Host.Outcome.next.inj h ▸ hu

/-- Every next state of an instruction is one of its effects. -/
theorem exec_effect {s t : State} {i : Instr} (h : exec i s = .next t) : Effect s i t := by
  cases i with
  | nop => exact .of_next h (.answer _ _ rfl rfl)
  | txclr => exact .of_next h (.txClear s)
  | txcmd d => exact .of_next h (.txCommand s d)
  | txpush d => exact .of_next h (.txPush s d)
  | txgo => exact .of_next h (.txGo s)
  | rxarm => exact .of_next h .arm
  | rxend => exact .rxEnd (orFault_eq_next.mp h)
  | rdcmd => exact .of_read rfl (execRdcmd_next h)
  | rdplen => exact .of_read rfl (execRdplen_next h)
  | rdpay d => exact .of_indexedRead rfl (execRdpay_next h)
  | recsel d => exact .of_next h (.select d)
  | rdrec d => exact .of_indexedRead rfl (execRdrec_next h)
  | rdnrec => exact .of_read rfl (execRdnrec_next h)
  | wrreg a d => exact .of_next h (.writeReg s a d)
  | rdreg a => exact .of_next h (.readReg s a)
  | srst => exact .of_next h (.reset _ (.inl rfl))
  | emit =>
    obtain ⟨-, b, acc, -, rfl⟩ := emitStep_next h
    exact .emit b acc
  | rxbyte b => exact .feed rfl ((State.feed_singleton _ s b).trans (orFault_eq_next.mp h))
  | reset => exact .of_next h (.reset _ (.inr rfl))
  | cmdFrame c p => exact .burst (orFault_eq_next.mp h)
  | rspFrame sync version c len pl k => exact .feed rfl (orFault_eq_next.mp h)
  | discRecord la s0 s1 => exact .feed rfl (orFault_eq_next.mp h)

/-! ### What every effect keeps -/

/-- R46 I10, R141: in T_BUSY only SRST and reset touch the loaded command. -/
theorem Effect.loadedCommand_of_busy {s t : State} {i : Instr} (h : Effect s i t) (hb : s.ser.txState = .busy)
    (hsrst : i ≠ .srst) (hreset : i ≠ .reset) :
    t.ser.txCmd = s.ser.txCmd ∧ t.ser.txLen = s.ser.txLen ∧ t.ser.txOvf = s.ser.txOvf ∧
      t.ser.txp = s.ser.txp := by
  cases h with
  | load u hi hidle => simp [hb] at hidle
  | emit b acc => exact s.ser.advance_loaded
  | frame c p u m v bs hm hbusy => exact hbusy hb
  | reset v hi => exact (hi.elim hsrst hreset).elim
  | answer | setCtrl | arm | select | window => exact ⟨rfl, rfl, rfl, rfl⟩

/-- R45: EMIT pushes one byte, a command frame burst some, nothing else any. -/
theorem Effect.lineOut {s t : State} {i : Instr} (h : Effect s i t) : ∃ bs, t.lineOut = s.lineOut ++ bs ∧
    (i = .emit → bs.length = 1) ∧ (i ≠ .emit → (∀ c p, i ≠ .cmdFrame c p) → bs = []) := by
  have silent (hi : i ≠ .emit) : ∃ bs, s.lineOut = s.lineOut ++ bs ∧
      (i = .emit → bs.length = 1) ∧ (i ≠ .emit → (∀ c p, i ≠ .cmdFrame c p) → bs = []) :=
    ⟨[], by simp, fun he => absurd he hi, fun _ _ => rfl⟩
  cases h with
  | emit b acc => exact ⟨[b], rfl, fun _ => rfl, fun hne => absurd rfl hne⟩
  | frame c p u m v bs hm hbusy => exact ⟨bs, rfl, by simp, fun _ hne => absurd rfl (hne c p)⟩
  | answer c v hi hc => exact silent (by rintro rfl; cases hi)
  | load u hi hidle => exact silent (by rintro rfl; cases hi)
  | window r l v hi hr hclosed => exact silent (by rintro rfl; cases hi)
  | reset v hi => exact silent (by rintro rfl; simp at hi)
  | setCtrl | arm | select => exact silent (by simp)

/-- R38: CTRL is written by WRREG 0, SRST and reset only. -/
theorem Effect.ctrl {s t : State} {i : Instr} (h : Effect s i t) (hsrst : i ≠ .srst) (hreset : i ≠ .reset)
    (hwr : ∀ d, i ≠ .wrreg 0 d) : t.common.ctrl = s.common.ctrl := by
  cases h with
  | answer c v hi hc => exact hc
  | setCtrl d c => exact absurd rfl (hwr d)
  | frame c p u m v bs hm hbusy => exact hm
  | reset v hi => exact (hi.elim hsrst hreset).elim
  | load | emit | arm | select | window => rfl

/-- R163, R168: the result is decided at a close and cleared by RXARM, SRST and reset. -/
theorem Effect.closesOrKeeps {s t : State} {i : Instr} (h : Effect s i t) (harm : i ≠ .rxarm)
    (hsrst : i ≠ .srst) (hreset : i ≠ .reset) : s.des.ClosesOrKeeps t.des := by
  cases h with
  | window r l v hi hr hclosed => exact hr
  | arm => exact absurd rfl harm
  | reset v hi => exact (hi.elim hsrst hreset).elim
  | select d => exact .refl s.des
  | answer | setCtrl | load | emit | frame => exact .refl s.des

/-- R30, R161: `rx_state` and `rx_cnt` change only in an open window. -/
theorem Effect.window_kept {s t : State} {i : Instr} (h : Effect s i t) (harm : i ≠ .rxarm)
    (hsrst : i ≠ .srst) (hreset : i ≠ .reset) (hw : s.des.rxState ≠ .recv ∨ actsOnWindow i = false) :
    t.des.rxState = s.des.rxState ∧ t.des.rxCnt = s.des.rxCnt := by
  cases h with
  | window r l v hi hr hclosed =>
    have hr : r = s.des := hclosed (hw.resolve_right (by simp [hi]))
    exact hr ▸ ⟨rfl, rfl⟩
  | arm => exact absurd rfl harm
  | reset v hi => exact (hi.elim hsrst hreset).elim
  | answer | setCtrl | load | emit | frame | select => exact ⟨rfl, rfl⟩

theorem actsOnWindow_eq_false {i : Instr} (hend : i ≠ .rxend) (hbyte : ∀ b, i ≠ .rxbyte b)
    (hrsp : ∀ a b c d e f, i ≠ .rspFrame a b c d e f) (hrec : ∀ a b c, i ≠ .discRecord a b c) :
    actsOnWindow i = false := by
  unfold actsOnWindow
  split
  · exact absurd rfl hend
  · exact absurd rfl (hbyte _)
  · exact absurd rfl (hrsp _ _ _ _ _ _)
  · exact absurd rfl (hrec _ _ _)
  · rfl

/-! ### The registers after reset -/

/-- R51: right after reset every register number up to 8 reads 0x00. -/
theorem State.reset_regView : ∀ a : RegNo, a.toNat ≤ 8 → State.reset.regView a = some 0x00 := by decide

/-! ### The bits of the views -/

/-- The bits above the low part of an append are those of its high part. -/
theorem getLsbD_append_add {n k : Nat} (x : BitVec n) (y : BitVec k) (i : Nat) :
    (x ++ y).getLsbD (i + k) = x.getLsbD i := by simp [BitVec.getLsbD_append]

theorem getLsbD_append_ofBool_zero {n : Nat} (x : BitVec n) (b : Bool) :
    (x ++ BitVec.ofBool b).getLsbD 0 = b := by
  rw [BitVec.getLsbD_append]
  simp

theorem getLsbD_append_ofBool_succ {n : Nat} (x : BitVec n) (b : Bool) (i : Nat) :
    (x ++ BitVec.ofBool b).getLsbD (i + 1) = x.getLsbD i := getLsbD_append_add x _ i

theorem extractLsb'_append_ofBool_succ {n : Nat} (x : BitVec n) (b : Bool) (i m : Nat) :
    (x ++ BitVec.ofBool b).extractLsb' (i + 1) m = x.extractLsb' i m :=
  BitVec.extractLsb'_append_eq_of_le (Nat.le_add_left 1 i)

/-- R39. -/
theorem State.statusView_bits (s : State) :
    s.statusView.getLsbD 0 = (s.ser.txState == .busy) ∧ s.statusView.getLsbD 1 = s.ser.txDone ∧
      s.statusView.getLsbD 2 = (s.des.rxState == .recv) ∧ s.statusView.getLsbD 3 = (s.des.rxState == .done) ∧
      s.statusView.getLsbD 4 = (s.des.rxRes == .ok) ∧ s.statusView.getLsbD 5 = (s.des.rxRes == .malformed) ∧
      s.statusView.getLsbD 6 = s.des.ckOk ∧ s.statusView.getLsbD 7 = s.des.lenOk := by
  simp only [State.statusView, getLsbD_append_ofBool_zero, getLsbD_append_ofBool_succ,
    BitVec.getLsbD_ofBool, decide_true, Bool.true_and, and_self]

/-- R40. -/
theorem State.errView_bits (s : State) :
    s.errView.getLsbD 0 = s.ser.txOvf ∧ s.errView.getLsbD 1 = s.common.errSeq ∧
      s.errView.getLsbD 2 = s.common.errIdx ∧ s.errView.getLsbD 3 = s.common.errIllop ∧
      s.errView.extractLsb' 4 4 = 0 := by
  simp only [State.errView, getLsbD_append_ofBool_zero, getLsbD_append_ofBool_succ,
    extractLsb'_append_ofBool_succ, true_and]
  decide

/-- R41. -/
theorem Des.causeView_bits (r : Des) :
    r.causeView.extractLsb' 0 2 = r.rxCause.code ∧
      r.causeView.getLsbD 2 = (r.rxState == .done && r.rxCnt == 0) ∧ r.causeView.getLsbD 3 = r.rxFull ∧
      r.causeView.extractLsb' 4 4 = 0 := by
  have bit (i : Nat) : r.causeView.getLsbD (i + 2) =
      (0#4 ++ BitVec.ofBool r.rxFull ++ BitVec.ofBool (r.rxState == .done && r.rxCnt == 0)).getLsbD i :=
    getLsbD_append_add _ _ i
  have bits (i : Nat) : r.causeView.extractLsb' (i + 2) 4 =
      (0#4 ++ BitVec.ofBool r.rxFull ++ BitVec.ofBool (r.rxState == .done && r.rxCnt == 0)).extractLsb' i 4 :=
    BitVec.extractLsb'_append_eq_of_le (Nat.le_add_left 2 i)
  simp only [bit, bits, getLsbD_append_ofBool_zero, getLsbD_append_ofBool_succ,
    extractLsb'_append_ofBool_succ, true_and]
  exact ⟨BitVec.extractLsb'_append_eq_right, by decide⟩

end Sys2Proof.Machine

namespace Sys2Proof.Proofs
open Sys2Proof.Machine

/-- Settles O3: a step is idle, an instruction of a state with one stimulus less, or a raise of IllegalOp. -/
theorem stepKeepsInvariants : Obligations.StepKeepsInvariants := fun _ _ => Inv.step

/-- Settles O27, effect by effect. -/
theorem loadedCommandKeptWhileBusy : Obligations.LoadedCommandKeptWhileBusy :=
  fun _ _ _ hb hsrst hreset h => (exec_effect h).loadedCommand_of_busy hb hsrst hreset

/-- Settles O29, effect by effect. -/
theorem lineOutOnlyGrows : Obligations.LineOutOnlyGrows := fun _ _ _ h => (exec_effect h).lineOut

/-- Settles O38: a change of `rx_state` is a close, and a close changes `rx_state`. -/
theorem resultChangesOnlyAtClose : Obligations.ResultChangesOnlyAtClose := by
  intro s t i h
  have he := exec_effect h
  refine ⟨he.ctrl, fun harm hsrst hreset => ⟨fun hsame => ?_, fun hne => ?_, fun hw => ?_⟩⟩
  · rcases he.closesOrKeeps harm hsrst hreset with ⟨hrecv, hdone⟩ | ⟨-, hkept⟩
    · simp [hrecv, hdone] at hsame
    · exact hkept
  · rcases he.closesOrKeeps harm hsrst hreset with hclose | ⟨hsame, -⟩
    · exact hclose
    · exact absurd hsame hne
  · exact he.window_kept harm hsrst hreset
      (hw.imp_right fun ⟨hend, hbyte, hrsp, hrec⟩ => actsOnWindow_eq_false hend hbyte hrsp hrec)

/-- Settles O1: the registers are fields of the reset state, and each view of them reads 0x00. -/
theorem resetRegisterValues : Obligations.ResetRegisterValues := by
  refine ⟨rfl, rfl, rfl, rfl, rfl, rfl, rfl, rfl, rfl, rfl, rfl, rfl, rfl, rfl, rfl, rfl, rfl, rfl, rfl, rfl,
    fun a ha => ?_⟩
  show Host.Outcome.next (State.reset.readReg a) = _
  rw [State.readReg, State.reset_regView a ha]
  rfl

/-- Settles O17, view by view. -/
theorem statusErrAndCauseBits : Obligations.StatusErrAndCauseBits := by
  intro s
  refine ⟨s.statusView_bits, s.errView_bits, rfl, rfl, rfl, rfl, ?_⟩
  obtain ⟨hcode, hempty, hfull, hzero⟩ := s.des.causeView_bits
  exact ⟨hcode, by rw [hempty, Bool.decide_and]; rfl, hfull, hzero⟩

end Sys2Proof.Proofs
end

section
/-! PROOFS. Memory (20_memory.md): the step that runs the next stimulus, the frame of the reads, and repeated
host ops. -/

namespace Sys2Proof.Machine

/-! ### One step -/

/-- R71: a nonempty schedule gives its first stimulus. -/
theorem State.fetch_cons {s : State} {e : Stimulus} {rest : List Stimulus} (h : s.schedule = e :: rest) :
    s.fetch = some (e, { s with schedule := rest }) := by
  simp only [State.fetch, h]

/-! ### What a read answers -/

/-- R69, R164, R166, R196, R212: the next states of NOP and the reads: a value, or the refusal of an error of
their own. `exec_readAnswer` ties it to `exec`. -/
inductive ReadAnswer (s : State) : Instr → State → Prop
  | value {i : Instr} (v : Byte) : ReadAnswer s i (s.ret v)
  /-- RDREG of a reserved number. -/
  | reserved (a : RegNo) : ReadAnswer s (.rdreg a) (s.raise .illegalOp)
  /-- A read of a result that is not valid. -/
  | noResult {i : Instr} (hnop : i ≠ .nop) (hreg : ∀ a, i ≠ .rdreg a) : ReadAnswer s i (s.raise .seqError)
  /-- RDPAY or RDREC of an index out of range. -/
  | badIndex {i : Instr} (d : Byte) (hi : i = .rdpay d ∨ i = .rdrec d) : ReadAnswer s i (s.raise .idxError)

/-- What the reads of the result that need no index answer. -/
theorem ReadAnswer.of_read {s t : State} {i : Instr} (hnop : i ≠ .nop) (hreg : ∀ a, i ≠ .rdreg a)
    (h : t = s.raise .seqError ∨ ∃ v, t = s.ret v) : ReadAnswer s i t := by
  rcases h with rfl | ⟨v, rfl⟩
  · exact .noResult hnop hreg
  · exact .value v

/-- What the indexed reads of the result answer. -/
theorem ReadAnswer.of_indexedRead {s t : State} {i : Instr} (d : Byte) (hi : i = .rdpay d ∨ i = .rdrec d)
    (h : t = s.raise .seqError ∨ t = s.raise .idxError ∨ ∃ v, t = s.ret v) : ReadAnswer s i t := by
  rcases h with rfl | rfl | ⟨v, rfl⟩
  · rcases hi with rfl | rfl <;> exact .noResult (by simp) (by simp)
  · exact .badIndex d hi
  · exact .value v

theorem ReadAnswer.readReg (s : State) (a : RegNo) : ReadAnswer s (.rdreg a) (s.readReg a) := by
  rcases s.readReg_cases a with e | ⟨v, e⟩ <;> rw [e]
  · exact .reserved a
  · exact .value v

/-- R69: NOP and the reads. -/
def isRead : Instr → Bool
  | .nop => true
  | .rdreg _ => true
  | .rdcmd => true
  | .rdplen => true
  | .rdnrec => true
  | .rdpay _ => true
  | .rdrec _ => true
  | _ => false

/-- Every next state of a read is one of its answers. -/
theorem exec_readAnswer {s t : State} {i : Instr} (hi : isRead i = true) (h : exec i s = .next t) :
    ReadAnswer s i t := by
  cases i with
  | nop => exact Host.Outcome.next.inj h ▸ .value 0x00
  | rdreg a => exact Host.Outcome.next.inj h ▸ .readReg s a
  | rdcmd => exact .of_read (by simp) (by simp) (execRdcmd_next h)
  | rdplen => exact .of_read (by simp) (by simp) (execRdplen_next h)
  | rdnrec => exact .of_read (by simp) (by simp) (execRdnrec_next h)
  | rdpay d => exact .of_indexedRead d (.inl rfl) (execRdpay_next h)
  | rdrec d => exact .of_indexedRead d (.inr rfl) (execRdrec_next h)
  | txclr | txcmd | txpush | txgo | rxarm | rxend | recsel | wrreg | srst | emit | rxbyte | reset | cmdFrame
  | rspFrame | discRecord => cases hi

/-! ### What every answer of a read keeps -/

/-- R69: a read writes `rdata` and error bits only, and of the latter none of SER. -/
theorem ReadAnswer.frame {s t : State} {i : Instr} (h : ReadAnswer s i t) :
    t = { s with common := t.common, rdata := t.rdata } ∧ t.common.ctrl = s.common.ctrl := by
  cases h with
  | value | reserved | noResult | badIndex => exact ⟨rfl, rfl⟩

/-- R234: no read clears an error bit. -/
theorem ReadAnswer.sticky {s t : State} {i : Instr} (h : ReadAnswer s i t) :
    (s.common.errSeq = true → t.common.errSeq = true) ∧
      (s.common.errIdx = true → t.common.errIdx = true) ∧
      (s.common.errIllop = true → t.common.errIllop = true) := by
  cases h with
  | value => exact ⟨id, id, id⟩
  | reserved => exact ⟨id, id, fun _ => rfl⟩
  | noResult => exact ⟨fun _ => rfl, id, id⟩
  | badIndex => exact ⟨id, fun _ => rfl, id⟩

theorem ReadAnswer.errIllop {s t : State} {i : Instr} (h : ReadAnswer s i t) (hi : ∀ a, i ≠ .rdreg a) :
    t.common.errIllop = s.common.errIllop := by
  cases h with
  | reserved a => exact absurd rfl (hi a)
  | value | noResult | badIndex => rfl

theorem ReadAnswer.errIdx {s t : State} {i : Instr} (h : ReadAnswer s i t)
    (hi : ∀ d, i ≠ .rdpay d ∧ i ≠ .rdrec d) : t.common.errIdx = s.common.errIdx := by
  cases h with
  | badIndex d hd => exact (hd.elim (hi d).1 (hi d).2).elim
  | value | reserved | noResult => rfl

theorem ReadAnswer.errSeq {s t : State} {i : Instr} (h : ReadAnswer s i t) (hi : i = .nop ∨ ∃ a, i = .rdreg a) :
    t.common.errSeq = s.common.errSeq := by
  cases h with
  | noResult hnop hreg => exact (hi.elim hnop fun ⟨a, ha⟩ => hreg a ha).elim
  | value | reserved | badIndex => rfl

/-! ### Repeated updates -/

@[simp] theorem State.ret_ret (s : State) (v w : Byte) : (s.ret v).ret w = s.ret w := rfl

@[simp] theorem State.raise_raise (s : State) (e : ErrKind) : (s.raise e).raise e = s.raise e := by
  cases e <;> rfl

theorem State.clearErr_clearErr (s : State) (d : Byte) : (s.clearErr d).clearErr d = s.clearErr d := by
  simp [State.clearErr]

/-- R134: in T_BUSY the refusal of TXCLR is repeated, else what it cleared is clear. -/
theorem State.txClear_txClear (s : State) : s.txClear.txClear = s.txClear := by
  by_cases hb : s.ser.txState = .busy
  · simp [State.txClear, hb]
  · simp [State.txClear, hb]

/-- R135: in T_BUSY the refusal of TXCMD is repeated, else the command is the one it wrote. -/
theorem State.txCommand_txCommand (s : State) (d : Byte) : (s.txCommand d).txCommand d = s.txCommand d := by
  by_cases hb : s.ser.txState = .busy
  · simp [State.txCommand, hb]
  · simp [State.txCommand, hb]

/-- R211: every register number but 0 and 2 refuses a write, in every state. -/
theorem State.writeReg_readOnly {a : RegNo} (h0 : a ≠ 0) (h2 : a ≠ 2) (s : State) (d : Byte) :
    s.writeReg a d = s.raise .illegalOp := by
  rcases s.writeReg_cases a d with ⟨rfl, -⟩ | ⟨rfl, -⟩ | ⟨-, -, e⟩
  · exact absurd rfl h0
  · exact absurd rfl h2
  · exact e

/-- R211: CTRL takes the same bits again, the bits of ERR that were cleared are clear, a refusal is repeated. -/
theorem State.writeReg_writeReg (s : State) (a : RegNo) (d : Byte) :
    (s.writeReg a d).writeReg a d = s.writeReg a d := by
  rcases s.writeReg_cases a d with ⟨rfl, -⟩ | ⟨rfl, -⟩ | ⟨h0, h2, -⟩
  · rfl
  · exact congrArg (·.ret 0x00) (s.clearErr_clearErr d)
  · rw [writeReg_readOnly h0 h2, writeReg_readOnly h0 h2, s.raise_raise]

/-- R43: which numbers are reserved does not depend on the state. -/
theorem State.regView_eq_none_congr (s t : State) (a : RegNo) : s.regView a = none ↔ t.regView a = none := by
  unfold State.regView
  split <;> simp

/-- R212: no view shows `rdata`, and a refusal is repeated. -/
theorem State.readReg_readReg (s : State) (a : RegNo) : (s.readReg a).readReg a = s.readReg a := by
  cases h : s.regView a with
  | some v =>
    have e (w : Byte) : (s.ret w).regView a = some v := h
    simp only [State.readReg, h, e, State.ret_ret]
  | none =>
    have h' : (s.raise .illegalOp).regView a = none := (s.regView_eq_none_congr _ a).mp h
    simp only [State.readReg, h, h', State.raise_raise]

/-! ### Repeated ops -/

/-- R69: where it completes, issuing it again at once completes in the same state. -/
def Repeats (op : State → Result) : Prop := ∀ ⦃s t : State⦄, op s = .next t → op t = .next t

/-- An op that always completes repeats if its update is idempotent. -/
theorem Repeats.of_idempotent {f : State → State} (hf : ∀ s, f (f s) = f s) : Repeats fun s => .next (f s) := by
  intro s t h
  obtain rfl := Host.Outcome.next.inj h
  exact congrArg Host.Outcome.next (hf s)

/-- R162: after RXEND no window is open, and a further one is ignored. -/
theorem Repeats.rxEnd : Repeats execRxend := by
  have ignored {u : State} (hu : u.des.rxState ≠ .recv) : execRxend u = .next (u.ret 0x00) :=
    congrArg orFault (if_neg hu)
  intro s t h
  rcases State.rxEnd_next (orFault_eq_next.mp h) with ⟨hs, rfl⟩ | ⟨-, r, hclose, rfl⟩
  · exact ignored hs
  · exact ignored (by simp [(Des.close_next hclose).1])

/-- R168: a read of the result: it repeats, and leaves DES, on which alone its answer depends. -/
def RepeatsOnDes (read : State → Result) : Prop :=
  ∀ ⦃s t : State⦄, read s = .next t → t.des = s.des ∧ read t = .next t

theorem RepeatsOnDes.repeats {read : State → Result} (h : RepeatsOnDes read) : Repeats read :=
  fun _ _ e => (h e).2

theorem RepeatsOnDes.ret (f : Des → Byte) : RepeatsOnDes fun s => .next (s.ret (f s.des)) := by
  intro s t h
  obtain rfl := Host.Outcome.next.inj h
  exact ⟨rfl, rfl⟩

theorem RepeatsOnDes.readRxb (a : Des → Nat) : RepeatsOnDes fun s => s.readRxb (a s.des) := by
  intro s t h
  cases hl : s.des.rxb.load .rxb (a s.des) with
  | ok b =>
    obtain rfl : s.ret b = t := by simpa [State.readRxb, hl] using h
    exact ⟨rfl, by simp [State.readRxb, hl]⟩
  | error f => simp [State.readRxb, hl] at h

/-- R229: the index is in range again or out of range again. -/
theorem RepeatsOnDes.withIndex (ok : Des → Bool) {read : State → Result} (hread : RepeatsOnDes read) :
    RepeatsOnDes fun s => s.withIndex (ok s.des) (read s) := by
  intro s t h
  cases hok : ok s.des with
  | true =>
    obtain ⟨hdes, hrep⟩ := hread (by simpa [State.withIndex, hok] using h)
    exact ⟨hdes, by simpa [State.withIndex, hdes, hok] using hrep⟩
  | false =>
    obtain rfl : s.raise .idxError = t := by simpa [State.withIndex, hok] using h
    exact ⟨by simp, by simp [State.withIndex, hok]⟩

/-- R164: the result is valid again or invalid again. -/
theorem RepeatsOnDes.withResult {read : State → Result} (hread : RepeatsOnDes read) :
    RepeatsOnDes fun s => s.withResult (read s) := by
  intro s t h
  cases hv : s.des.resultValid with
  | true =>
    obtain ⟨hdes, hrep⟩ := hread ((State.withResult_valid hv _).symm.trans h)
    exact ⟨hdes, (State.withResult_valid (hdes ▸ hv) _).trans hrep⟩
  | false =>
    obtain rfl := Host.Outcome.next.inj ((State.withResult_invalid hv _).symm.trans h)
    exact ⟨rfl, State.withResult_invalid (s := s.raise .seqError) hv _⟩

/-- R69: every host op but TXPUSH and TXGO repeats. -/
theorem exec_repeats {i : Instr} (hi : repeatable i = true) : Repeats (exec i) := by
  cases i with
  | nop => exact .of_idempotent (f := (·.ret 0x00)) fun _ => rfl
  | txclr => exact .of_idempotent State.txClear_txClear
  | txcmd d => exact .of_idempotent (f := (·.txCommand d)) (·.txCommand_txCommand d)
  | rxarm =>
    exact .of_idempotent (f := fun s => { s with des := s.des.arm Config.device, rdata := 0x00 }) fun _ => rfl
  | rxend => exact .rxEnd
  | rdcmd => exact (RepeatsOnDes.readRxb fun _ => cmdAddr).withResult.repeats
  | rdplen => exact (RepeatsOnDes.ret fun r => natByte r.plen).withResult.repeats
  | rdpay d =>
    exact ((RepeatsOnDes.readRxb fun _ => payAddr d).withIndex (·.payIndexOk d)).withResult.repeats
  | recsel d =>
    exact .of_idempotent (f := fun s => { s with des := { s.des with recSel := d }, rdata := 0x00 }) fun _ => rfl
  | rdrec d =>
    exact ((RepeatsOnDes.readRxb (·.recAddr d)).withIndex (·.recIndexOk d)).withResult.repeats
  | rdnrec => exact (RepeatsOnDes.ret fun r => natByte r.nrec).withResult.repeats
  | wrreg a d => exact .of_idempotent (f := (·.writeReg a d)) (·.writeReg_writeReg a d)
  | rdreg a => exact .of_idempotent (f := (·.readReg a)) (·.readReg_readReg a)
  | srst => exact .of_idempotent (f := (·.resetRegisters.ret 0x00)) fun _ => rfl
  | txpush | txgo | emit | rxbyte | reset | cmdFrame | rspFrame | discRecord => cases hi

end Sys2Proof.Machine

namespace Sys2Proof.Proofs
open Sys2Proof.Machine

/-- Settles O11: `step` fetches the first stimulus of the schedule and decodes it. -/
theorem stepRunsDecodedInstruction : Obligations.StepRunsDecodedInstruction := by
  intro s e rest i hs hd
  simp only [step, State.fetch_cons hs, hd]

/-- Settles O52, answer by answer. -/
theorem frameOfReads : Obligations.FrameOfReads := by
  intro s t i h hi
  have hread : isRead i = true := by
    rcases hi with (rfl | ⟨a, rfl⟩) | (rfl | rfl | rfl) | ⟨d, rfl | rfl⟩ <;> rfl
  have ha : ReadAnswer s i t := exec_readAnswer hread h
  obtain ⟨e, hctrl⟩ := ha.frame
  obtain ⟨hseq, hidx, hillop⟩ := ha.sticky
  have hser : t.ser = s.ser := by rw [e]
  have hdes : t.des = s.des := by rw [e]
  exact ⟨hser, hdes, by rw [e], by rw [e], by rw [e], hctrl, fun _ => by rw [hser], fun _ => by rw [hdes],
    hseq, hidx, hillop, ha.errIllop, ha.errIdx, ha.errSeq⟩

/-- Settles O57: an update that is idempotent, an ignored RXEND, or a read that leaves what it depends on. -/
theorem repeatedOpLeavesSameState : Obligations.RepeatedOpLeavesSameState :=
  fun _ _ _ hi h => exec_repeats hi h

end Sys2Proof.Proofs
end

section
/-! PROOFS. Encoding (30_encoding.md): decode and encode are inverse, the mask and match columns of the opcode
map, and the layout of a command frame. -/

namespace Sys2Proof

/-! ### What decodes encodes back -/

/-- R98, R99, R101: `i` is well formed and `e` is the stimulus that presents it. -/
def Encodes (cfg : Config) (i : Instr) (e : Stimulus) : Prop := i.wellFormed = true ∧ encode cfg i = e

@[simp] theorem orReject_eq_ok {e : DecodeError} {o : Option Instr} {i : Instr} :
    orReject e o = .ok i ↔ o = some i := by cases o <;> simp [orReject]

theorem eq_ofNat_of_toNat_eq {n k : Nat} {x : BitVec n} (h : x.toNat = k) : x = BitVec.ofNat n k := by simp [← h]

/-- R99: where `a` and `d` are not used they are 0. -/
theorem Encodes.of_plainOp {cfg : Config} {op : BitVec 4} {a : RegNo} {d : Byte} {i j : Instr} {k : Nat}
    (hop : op.toNat = k) (h : plainOp a d j = some i)
    (hj : Encodes cfg j (.host (opWord (BitVec.ofNat 4 k) 0 0))) : Encodes cfg i (.host (opWord op a d)) := by
  unfold plainOp at h
  split at h
  · rename_i hfields
    obtain ⟨rfl, rfl⟩ := hfields
    exact Option.some.inj h ▸ eq_ofNat_of_toNat_eq hop ▸ hj
  · cases h

/-- R99: where `a` is not used it is 0. -/
theorem Encodes.of_dataOp {cfg : Config} {op : BitVec 4} {a : RegNo} {d : Byte} {i j : Instr} {k : Nat}
    (hop : op.toNat = k) (h : dataOp a j = some i)
    (hj : Encodes cfg j (.host (opWord (BitVec.ofNat 4 k) 0 d))) : Encodes cfg i (.host (opWord op a d)) := by
  unfold dataOp at h
  split at h
  · rename_i ha
    exact ha ▸ Option.some.inj h ▸ eq_ofNat_of_toNat_eq hop ▸ hj
  · cases h

/-- R99: where `d` is not used it is 0. -/
theorem Encodes.of_regOp {cfg : Config} {op : BitVec 4} {a : RegNo} {d : Byte} {i j : Instr} {k : Nat}
    (hop : op.toNat = k) (h : regOp d j = some i)
    (hj : Encodes cfg j (.host (opWord (BitVec.ofNat 4 k) a 0))) : Encodes cfg i (.host (opWord op a d)) := by
  unfold regOp at h
  split at h
  · rename_i hd
    exact hd ▸ Option.some.inj h ▸ eq_ofNat_of_toNat_eq hop ▸ hj
  · cases h

/-- R98, row by row: the three fields that decode to an instruction are those of its word. -/
theorem Encodes.of_decodeFields {op : BitVec 4} {a : RegNo} {d : Byte} {i : Instr} (cfg : Config)
    (h : decodeFields op a d = some i) : Encodes cfg i (.host (opWord op a d)) := by
  unfold decodeFields at h
  split at h <;> rename_i hop
  · exact .of_plainOp hop h ⟨rfl, rfl⟩
  · exact .of_plainOp hop h ⟨rfl, rfl⟩
  · exact .of_dataOp hop h ⟨rfl, rfl⟩
  · exact .of_dataOp hop h ⟨rfl, rfl⟩
  · exact .of_plainOp hop h ⟨rfl, rfl⟩
  · exact .of_plainOp hop h ⟨rfl, rfl⟩
  · exact .of_plainOp hop h ⟨rfl, rfl⟩
  · exact .of_plainOp hop h ⟨rfl, rfl⟩
  · exact .of_plainOp hop h ⟨rfl, rfl⟩
  · exact .of_dataOp hop h ⟨rfl, rfl⟩
  · exact .of_dataOp hop h ⟨rfl, rfl⟩
  · exact .of_dataOp hop h ⟨rfl, rfl⟩
  · exact .of_plainOp hop h ⟨rfl, rfl⟩
  · obtain rfl := eq_ofNat_of_toNat_eq hop
    exact Option.some.inj h ▸ ⟨rfl, rfl⟩
  · exact .of_regOp hop h ⟨rfl, rfl⟩
  · exact .of_plainOp hop h ⟨rfl, rfl⟩
  · cases h

theorem Encodes.of_decodeHost {w : OpWord} {i : Instr} (cfg : Config) (h : decodeHost w = some i) :
    Encodes cfg i (.host w) := opWord_fields w ▸ .of_decodeFields cfg h

/-- R86: the count, the version and the checksum that were checked are those of the frame laid out again. -/
theorem Encodes.of_decodeCommandFrame {cfg : Config} {bs : List Byte} {i : Instr}
    (h : decodeCommandFrame cfg bs = some i) : Encodes cfg i (.commandFrame bs) := by
  unfold decodeCommandFrame at h
  split at h
  · rename_i sync version c n rest
    dsimp only at h
    split at h
    · rename_i hfields
      obtain ⟨rfl, rfl, hn, hk⟩ := hfields
      obtain rfl := Option.some.inj h
      have hlen : rest.dropLast.length ≤ txPMax := hn ▸ Nat.le_of_lt_succ n.isLt
      have hcount : BitVec.ofNat 8 rest.dropLast.length = n := (eq_ofNat_of_toNat_eq hn).symm
      refine ⟨decide_eq_true hlen, congrArg Stimulus.commandFrame ?_⟩
      rw [LevelF.commandFrame_eq, hcount, List.dropLast_append_getLast? _ hk]
    · cases h
  · cases h

/-- R90: the last byte is the checksum, and the payload is what stands before it. -/
theorem Encodes.of_decodeResponseFrame {cfg : Config} {bs : List Byte} {i : Instr}
    (h : decodeResponseFrame bs = some i) : Encodes cfg i (.responseFrame bs) := by
  unfold decodeResponseFrame at h
  split at h
  · rename_i sync version c len rest
    split at h
    · rename_i k hk
      split at h
      · rename_i hlen
        obtain rfl := Option.some.inj h
        have hpay : rest.dropLast.length ≤ maxFrame - minFrame := by
          simp only [List.length_dropLast, maxFrame, minFrame, hdrLen] at hlen ⊢
          omega
        refine ⟨decide_eq_true hpay, congrArg Stimulus.responseFrame ?_⟩
        rw [List.append_assoc, List.dropLast_append_getLast? _ hk]
        rfl
      · cases h
    · cases h
  · cases h

/-- R94: two bytes after the first eight, so the long address has eight. -/
theorem Encodes.of_decodeDiscoveryRecord {cfg : Config} {bs : List Byte} {i : Instr}
    (h : decodeDiscoveryRecord bs = some i) : Encodes cfg i (.discoveryRecord bs) := by
  unfold decodeDiscoveryRecord at h
  split at h
  · rename_i s0 s1 hdrop
    obtain rfl := Option.some.inj h
    have hlen : (bs.take longLen).length = longLen := by
      have := congrArg List.length hdrop
      simp only [List.length_drop, List.length_cons, List.length_nil] at this
      exact List.length_take_of_le (by omega)
    refine ⟨decide_eq_true hlen, congrArg Stimulus.discoveryRecord ?_⟩
    rw [← hdrop, List.take_append_drop]
  · cases h

/-- Each stimulus that decodes is the encoding of what it decodes to. -/
theorem Encodes.of_decode {cfg : Config} {e : Stimulus} {i : Instr} (h : decode cfg e = .ok i) :
    Encodes cfg i e := by
  cases e with
  | host w => exact .of_decodeHost cfg (orReject_eq_ok.mp h)
  | ser => exact Except.ok.inj h ▸ ⟨rfl, rfl⟩
  | line b => exact Except.ok.inj h ▸ ⟨rfl, rfl⟩
  | env => exact Except.ok.inj h ▸ ⟨rfl, rfl⟩
  | commandFrame bs => exact .of_decodeCommandFrame (orReject_eq_ok.mp h)
  | responseFrame bs => exact .of_decodeResponseFrame (orReject_eq_ok.mp h)
  | discoveryRecord bs => exact .of_decodeDiscoveryRecord (orReject_eq_ok.mp h)

/-! ### What is encoded decodes -/

/-- Decode undoes encode, constructor by constructor. -/
theorem decode_encode (cfg : Config) {i : Instr} (h : i.wellFormed = true) : decode cfg (encode cfg i) = .ok i := by
  cases i with
  | nop => exact Laws.RoundTrip.nop cfg h
  | txclr => exact Laws.RoundTrip.txclr cfg h
  | txcmd d => exact Laws.RoundTrip.txcmd d cfg h
  | txpush d => exact Laws.RoundTrip.txpush d cfg h
  | txgo => exact Laws.RoundTrip.txgo cfg h
  | rxarm => exact Laws.RoundTrip.rxarm cfg h
  | rxend => exact Laws.RoundTrip.rxend cfg h
  | rdcmd => exact Laws.RoundTrip.rdcmd cfg h
  | rdplen => exact Laws.RoundTrip.rdplen cfg h
  | rdpay d => exact Laws.RoundTrip.rdpay d cfg h
  | recsel d => exact Laws.RoundTrip.recsel d cfg h
  | rdrec d => exact Laws.RoundTrip.rdrec d cfg h
  | rdnrec => exact Laws.RoundTrip.rdnrec cfg h
  | wrreg a d => exact Laws.RoundTrip.wrreg a d cfg h
  | rdreg a => exact Laws.RoundTrip.rdreg a cfg h
  | srst => exact Laws.RoundTrip.srst cfg h
  | emit => exact Laws.RoundTrip.emit cfg h
  | rxbyte b => exact Laws.RoundTrip.rxbyte b cfg h
  | reset => exact Laws.RoundTrip.reset cfg h
  | cmdFrame c p => exact Laws.RoundTrip.cmdFrame c p cfg h
  | rspFrame sync version c len pl k => exact Laws.RoundTrip.rspFrame sync version c len pl k cfg h
  | discRecord la s0 s1 => exact Laws.RoundTrip.discRecord la s0 s1 cfg h

/-- R98, R99: a word decodes to an instruction iff it is the instruction's word. -/
theorem decodeHost_eq_some {w : OpWord} {i : Instr} (cfg : Config) :
    decodeHost w = some i ↔ Encodes cfg i (.host w) := by
  refine ⟨.of_decodeHost cfg, fun ⟨hwf, he⟩ => ?_⟩
  have hd := decode_encode cfg hwf
  rw [he] at hd
  exact orReject_eq_ok.mp hd

/-! ### The mask and match columns (R98) -/

theorem opWord_eq_iff {w : OpWord} {op : BitVec 4} {a : RegNo} {d : Byte} :
    opWord op a d = w ↔ opField w = op ∧ aField w = a ∧ dField w = d := by
  rw [← opWord_inj, opWord_fields, eq_comm]

/-- A mask of all of `op`, `ma` of `a` and `md` of `d` compares `op` with the row's and the rest with 0. -/
theorem and_opWord_eq_iff {w : OpWord} {op : BitVec 4} {ma : RegNo} {md : Byte} :
    w &&& opWord (BitVec.allOnes 4) ma md = opWord op 0 0 ↔
      opField w = op ∧ aField w &&& ma = 0 ∧ dField w &&& md = 0 := by
  have h := opWord_and (opField w) (BitVec.allOnes 4) (aField w) ma (dField w) md
  rw [opWord_fields, BitVec.and_allOnes] at h
  rw [h, opWord_inj]

/-- `mask` covers the field whose value is `x` if it must be 0, and leaves it out if it may be anything. -/
def MaskFits {n : Nat} (x mask v : BitVec n) : Prop := x &&& mask = 0 ↔ x = v

theorem MaskFits.zero {n : Nat} (x : BitVec n) : MaskFits x (BitVec.allOnes n) 0 := by simp [MaskFits]

theorem MaskFits.free {n : Nat} (x : BitVec n) : MaskFits x 0 x := by simp [MaskFits]

/-- A row of R98 in whose word `a` and `d` are the word's own fields where the mask leaves them out, else 0. -/
theorem match_iff_decodeHost {w : OpWord} {op : BitVec 4} {ma a : RegNo} {md d : Byte} {i : Instr}
    (hi : Encodes default i (.host (opWord op a d))) (ha : MaskFits (aField w) ma a)
    (hd : MaskFits (dField w) md d) :
    w &&& opWord (BitVec.allOnes 4) ma md = opWord op 0 0 ↔ decodeHost w = some i := by
  obtain ⟨hwf, he⟩ := hi
  calc w &&& opWord (BitVec.allOnes 4) ma md = opWord op 0 0
    _ ↔ opField w = op ∧ aField w &&& ma = 0 ∧ dField w &&& md = 0 := and_opWord_eq_iff
    _ ↔ opField w = op ∧ aField w = a ∧ dField w = d := and_congr_right' (and_congr ha hd)
    _ ↔ opWord op a d = w := opWord_eq_iff.symm
    _ ↔ Encodes default i (.host w) := by simp [Encodes, hwf, he]
    _ ↔ decodeHost w = some i := (decodeHost_eq_some default).symm

/-- R98: the instruction each row of the opcode map reads in `w`, with the word's own `a` and `d`. -/
def rowInstrs (w : OpWord) : List Instr :=
  [.nop, .txclr, .txcmd (dField w), .txpush (dField w), .txgo, .rxarm, .rxend, .rdcmd, .rdplen,
   .rdpay (dField w), .recsel (dField w), .rdrec (dField w), .rdnrec, .wrreg (aField w) (dField w),
   .rdreg (aField w), .srst]

/-- R98: a row matches a word iff the word decodes to the row's instruction. -/
theorem opcodeMap_match_iff (w : OpWord) :
    List.Forall₂ (fun row i => w &&& row.2 = row.1 ↔ decodeHost w = some i) Machine.opcodeMap (rowInstrs w) := by
  have plain {op : BitVec 4} {i : Instr} (hi : Encodes default i (.host (opWord op 0 0))) :
      w &&& 0xFFFF = opWord op 0 0 ↔ decodeHost w = some i := match_iff_decodeHost hi (.zero _) (.zero _)
  have data {op : BitVec 4} {i : Instr} (hi : Encodes default i (.host (opWord op 0 (dField w)))) :
      w &&& 0xFF00 = opWord op 0 0 ↔ decodeHost w = some i := match_iff_decodeHost hi (.zero _) (.free _)
  have reg : w &&& 0xF0FF = opWord 0xE 0 0 ↔ decodeHost w = some (.rdreg (aField w)) :=
    match_iff_decodeHost ⟨rfl, rfl⟩ (.free _) (.zero _)
  have both : w &&& 0xF000 = opWord 0xD 0 0 ↔ decodeHost w = some (.wrreg (aField w) (dField w)) :=
    match_iff_decodeHost ⟨rfl, rfl⟩ (.free _) (.free _)
  exact .cons (plain (op := 0x0) ⟨rfl, rfl⟩) <| .cons (plain (op := 0x1) ⟨rfl, rfl⟩) <|
    .cons (data (op := 0x2) ⟨rfl, rfl⟩) <| .cons (data (op := 0x3) ⟨rfl, rfl⟩) <|
    .cons (plain (op := 0x4) ⟨rfl, rfl⟩) <| .cons (plain (op := 0x5) ⟨rfl, rfl⟩) <|
    .cons (plain (op := 0x6) ⟨rfl, rfl⟩) <| .cons (plain (op := 0x7) ⟨rfl, rfl⟩) <|
    .cons (plain (op := 0x8) ⟨rfl, rfl⟩) <| .cons (data (op := 0x9) ⟨rfl, rfl⟩) <|
    .cons (data (op := 0xA) ⟨rfl, rfl⟩) <| .cons (data (op := 0xB) ⟨rfl, rfl⟩) <|
    .cons (plain (op := 0xC) ⟨rfl, rfl⟩) <| .cons both <| .cons reg <|
    .cons (plain (op := 0xF) ⟨rfl, rfl⟩) .nil

/-- A word that decodes at all decodes to what one of the rows reads in it. -/
theorem mem_rowInstrs_of_decodeHost {w : OpWord} {i : Instr} (h : decodeHost w = some i) : i ∈ rowInstrs w := by
  obtain ⟨-, he⟩ := (decodeHost_eq_some default).mp h
  cases i with
  | emit | rxbyte | reset | cmdFrame | rspFrame | discRecord => cases he
  | nop | txclr | txcmd | txpush | txgo | rxarm | rxend | rdcmd | rdplen | rdpay | recsel | rdrec | rdnrec
  | wrreg | rdreg | srst =>
    obtain rfl := Stimulus.host.inj he
    simp [rowInstrs]

theorem exists_mem_iff_of_forall₂ {α β : Type} {P : α → Prop} {Q : β → Prop} {as : List α} {bs : List β}
    (h : List.Forall₂ (fun a b => P a ↔ Q b) as bs) : (∃ a ∈ as, P a) ↔ ∃ b ∈ bs, Q b := by
  induction h with
  | nil => simp
  | cons hab _ ih => simp [hab, ih]

/-- R99: no row matches a word iff the word is reserved. -/
theorem no_match_iff_decodeHost_none (w : OpWord) :
    (∀ row ∈ Machine.opcodeMap, w &&& row.2 ≠ row.1) ↔ decodeHost w = none := by
  have hrow : (∃ row ∈ Machine.opcodeMap, w &&& row.2 = row.1) ↔ ∃ i, decodeHost w = some i :=
    (exists_mem_iff_of_forall₂ (opcodeMap_match_iff w)).trans
      ⟨fun ⟨i, _, hi⟩ => ⟨i, hi⟩, fun ⟨i, hi⟩ => ⟨i, mem_rowInstrs_of_decodeHost hi, hi⟩⟩
  rw [← not_iff_not, ← ne_eq (decodeHost w), Option.ne_none_iff_exists', ← hrow]
  push Not
  rfl

end Sys2Proof

/-! ### The layout of a command frame -/

namespace Sys2Proof.LevelF

theorem encode_eq_some {cfg : Config} {c : Byte} {p F : List Byte} :
    encode cfg c p = some F ↔ p.length ≤ txPMax ∧ F = commandFrame cfg c p := by
  unfold encode
  split <;> simp [*, eq_comm]

/-- R88: a count of at most 255 fits the length byte. -/
theorem toNat_ofNat_length {p : List Byte} (hp : p.length ≤ txPMax) : (BitVec.ofNat 8 p.length).toNat = p.length :=
  (BitVec.toNat_ofNat _ _).trans (Nat.mod_eq_of_lt (Nat.lt_succ_of_le hp))

end Sys2Proof.LevelF

namespace Sys2Proof.Proofs

/-- Settles O6, constructor by constructor. -/
theorem decodeReadsEncode : Obligations.DecodeReadsEncode := fun cfg _ h => decode_encode cfg h

/-- Settles O7, decoder by decoder. -/
theorem encodeReadsDecode : Obligations.EncodeReadsDecode := fun _ _ _ h => Encodes.of_decode h

/-- Settles O8: twelve fixed words, evaluated. -/
theorem writtenOutWordsDecode : Obligations.WrittenOutWordsDecode := by
  unfold Obligations.WrittenOutWordsDecode
  decide

/-- Settles O9: the word of an instruction is what the masked comparison asks for, field by field. -/
theorem opcodeMapMatchesMask : Obligations.OpcodeMapMatchesMask := by
  intro w
  have hrows := opcodeMap_match_iff w
  simp only [Machine.opcodeMap, rowInstrs, List.forall₂_cons] at hrows
  obtain ⟨h0, h1, h2, h3, h4, h5, h6, h7, h8, h9, hA, hB, hC, hD, hE, hF, -⟩ := hrows
  exact ⟨h0, h1, h2, h3, h4, h5, h6, h7, h8, h9, hA, hB, hC, hD, hE, hF, no_match_iff_decodeHost_none w⟩

/-- Settles O43: the header and the parameters by the frame's equation, the last byte by that of its region. -/
theorem encodeLaysOutFrame : Obligations.EncodeLaysOutFrame := by
  intro cfg c p
  refine ⟨fun hp => ?_, fun hp => if_neg (Nat.not_le.mpr hp)⟩
  have hlen := LevelF.commandFrame_length cfg c p
  refine ⟨_, LevelF.encode_eq_some.mpr ⟨hp, rfl⟩, hlen, rfl, rfl, rfl, ?_, fun i hi => ?_, ?_⟩
  · rw [hlen, Nat.add_sub_cancel_left]
    exact congrArg some (LevelF.toNat_ofNat_length hp)
  · rw [LevelF.commandFrame_param cfg c p (by omega) (by omega), Nat.add_sub_cancel_left]
  · have hregion : LevelF.region (LevelF.commandFrame cfg c p) =
        LevelF.slice (LevelF.commandFrame cfg c p) 1 (4 + p.length) := by
      rw [LevelF.region, hlen, show 5 + p.length - 1 = 4 + p.length by omega]
    rw [LevelF.commandFrame_last, hregion]
    rfl

end Sys2Proof.Proofs
end

section
/-! PROOFS. Wire formats (30_encoding.md R86, R90, R94, R103): what the bursts do from end to end, and what they
leave unchanged. -/

namespace Sys2Proof.LevelF

/-- R90: the bytes of a response frame, as RSP_FRAME feeds them. -/
def responseFrame (sync version c len : Byte) (pl : List Byte) (k : Byte) : List Byte :=
  [sync, version, c, len] ++ pl ++ [k]

theorem responseFrame_length (sync version c len k : Byte) (pl : List Byte) :
    (responseFrame sync version c len pl k).length = 5 + pl.length := by simp [responseFrame]; omega

theorem responseFrame_payload (sync version c len k : Byte) {pl : List Byte} {i : Nat} (hi : i < pl.length) :
    (responseFrame sync version c len pl k)[4 + i]? = pl[i]? := by
  rw [Nat.add_comm, ← List.getElem?_append_left hi]
  rfl

end Sys2Proof.LevelF

namespace Sys2Proof.Machine

/-! ### CMD_FRAME -/

/-- R139, R103: ENCODE and DRAIN in T_IDLE send the whole frame. -/
theorem State.burst_idle {cfg : Config} {s : State} {p : List Byte} (c : Byte) (hidle : s.ser.txState = .idle)
    (hp : p.length ≤ txPMax) :
    (s.load c p).drain cfg = .ok { s with
      ser := (s.ser.loadedWith c p).sent cfg p, rdata := 0x00
      lineOut := s.lineOut ++ LevelF.commandFrame cfg c p } := by
  rw [State.load_idle c hidle hp]
  exact State.drain_spec (s := { s with ser := s.ser.loadedWith c p, rdata := 0x00 }) rfl
    (s.ser.loadedWith_loaded c hp) (Nat.zero_le _) (fun h => absurd h (Nat.not_succ_le_zero 0))

/-- The parameters loaded are determined by SER. -/
theorem Ser.Loaded.unique {t : Ser} {p q : List Byte} (hp : t.Loaded p) (hq : t.Loaded q) : p = q :=
  hp.2.unique hq.2 (hp.1.trans hq.1.symm)

/-- R141, R103: in T_BUSY ENCODE sets SEQ only and DRAIN sends the rest of the frame in flight. -/
theorem SerInv.burst_busy {cfg : Config} {s : State} {q : List Byte} (h : SerInv cfg s.ser) (c : Byte)
    (p : List Byte) (hbusy : s.ser.txState = .busy) (hq : s.ser.Loaded q) :
    (s.load c p).drain cfg = .ok { s.raise .seqError with
      ser := s.ser.sent cfg q, lineOut := s.lineOut ++ (s.ser.frame cfg q).drop s.ser.txIdx.toNat } := by
  obtain ⟨q', hq', hck⟩ := h.loaded
  obtain rfl := hq'.unique hq
  rw [State.load_busy c p hbusy]
  exact State.drain_spec (s := s.raise .seqError) hbusy hq (h.busyIdx hbusy) (hck hbusy)

/-! ### RSP_FRAME in a window -/

/-- R161, R163: DES has received exactly the bytes `b` since RXARM: the window is open below RX_MAX bytes, and at
RX_MAX it has closed with the verdict on `b`. -/
structure Des.Received (cfg : Config) (c : Common) (b : List Byte) (r : Des) : Prop where
  window : r.Window b
  acc    : r.rxCk = LevelF.ckFold cfg (LevelF.region b)
  phase  : (b.length < cfg.rxMax ∧ r.rxState = .recv) ∨
    (b.length = cfg.rxMax ∧ r.rxState = .done ∧ r.rxRes = (c.report cfg b).1)

theorem Des.Received.arm (cfg : Config) (c : Common) (r : Des) : (r.arm cfg).Received cfg c [] where
  window := ⟨rfl, Memory.holds_nil _⟩
  acc := rfl
  phase := .inl ⟨Nat.lt_of_lt_of_le (by simp) (le_rxMax cfg), rfl⟩

theorem Des.Received.opened {cfg : Config} {c : Common} {b : List Byte} {r : Des} (h : r.Received cfg c b)
    (hroom : b.length < cfg.rxMax) : r.rxState = .recv := by
  rcases h.phase with ⟨-, hrecv⟩ | ⟨hfull, -⟩
  · exact hrecv
  · omega

/-- R161: one more byte while there is room. -/
theorem Des.Received.rxByte {cfg : Config} {s : State} {b : List Byte} (h : s.des.Received cfg s.common b)
    (x : Byte) (hroom : b.length < cfg.rxMax) :
    ∃ t, s.rxByte cfg x = .ok t ∧ t.common = s.common ∧ t.des.Received cfg s.common (b ++ [x]) := by
  have hw := h.window.stored x hroom
  have hlen : (b ++ [x]).length = b.length + 1 := by simp
  unfold State.rxByte
  rw [if_pos (h.opened hroom), Des.receive_spec s.common h.window x hroom h.acc]
  refine ⟨_, rfl, rfl, ?_⟩
  rw [State.recordIn_des]
  split
  · rename_i hfull
    exact ⟨hw, rfl, .inr ⟨by omega, rfl, rfl⟩⟩
  · rename_i hmore
    exact ⟨hw, rfl, .inl ⟨by omega, h.opened hroom⟩⟩

/-- R103 FEED of bytes that fit. -/
theorem Des.Received.feed {cfg : Config} (bs : List Byte) : ∀ {s : State} {b : List Byte},
    s.des.Received cfg s.common b → b.length + bs.length ≤ cfg.rxMax →
    ∃ t, s.feed cfg bs = .ok t ∧ t.common = s.common ∧ t.des.Received cfg s.common (b ++ bs) := by
  induction bs with
  | nil => exact fun h _ => ⟨_, rfl, rfl, by simpa using h⟩
  | cons x bs ih =>
    intro s b h hfit
    rw [List.length_cons] at hfit
    obtain ⟨u, hu, hcu, hrecv⟩ := h.rxByte x (by omega)
    obtain ⟨t, ht, hct, hdone⟩ := ih (hcu ▸ hrecv) (by simp; omega)
    refine ⟨t, by simp only [State.feed, hu, ht], hct.trans hcu, ?_⟩
    rwa [hcu, List.append_assoc] at hdone

/-- R162, R163: after RXEND the window has closed with the verdict on its bytes, by RXEND or before. -/
theorem Des.Received.rxEnd {cfg : Config} {s : State} {b : List Byte} (h : s.des.Received cfg s.common b) :
    ∃ t, s.rxEnd cfg = .ok t ∧ t.des.Window b ∧ t.des.rxState = .done ∧
      t.des.rxRes = (s.common.report cfg b).1 := by
  unfold State.rxEnd
  rcases h.phase with ⟨-, hrecv⟩ | ⟨-, hdone, hres⟩
  · rw [if_pos hrecv, ← h.window.1, Des.close_spec s.common h.window h.acc]
    exact ⟨_, rfl, h.window, rfl, rfl⟩
  · rw [if_neg (by simp [hdone])]
    exact ⟨_, rfl, h.window, hdone, hres⟩

/-- R163, R38: with CTRL clear no check is enabled. -/
theorem Common.report_unchecked {cfg : Config} {c : Common} {b : List Byte} (hc : c.ctrl = 0)
    (h : minFrame ≤ b.length) : c.report cfg b = (.ok, .none) := by
  simp [Common.report_long c h, Common.verdict, Common.ckv, Common.lenv, hc]

theorem execAll_cons {i : Instr} {is : List Instr} {s t : State} (h : exec i s = .next t) :
    execAll (i :: is) s = execAll is t := by rw [execAll, h]

/-- R160 to R163: a window that takes at least 5 bytes, all that are delivered, and is closed with CTRL clear, has
a valid result. -/
theorem State.feed_window {cfg : Config} {s : State} {bs : List Byte} (hctrl : s.common.ctrl = 0)
    (hlen : minFrame ≤ bs.length) (hfit : bs.length ≤ cfg.rxMax) :
    ∃ u t, State.feed cfg bs { s with des := s.des.arm cfg, rdata := 0x00 } = .ok u ∧ u.rxEnd cfg = .ok t ∧
      t.des.Window bs ∧ t.des.rxState = .done ∧ t.des.rxRes = .ok := by
  obtain ⟨u, hu, hc, hrecv⟩ := (Des.Received.arm cfg s.common s.des).feed
    (s := { s with des := s.des.arm cfg, rdata := 0x00 }) bs (by simpa using hfit)
  obtain ⟨t, ht, hw, hdone, hres⟩ := Des.Received.rxEnd (hc ▸ hrecv)
  refine ⟨u, t, hu, ht, hw, hdone, ?_⟩
  rw [hres, hc, List.nil_append, Common.report_unchecked hctrl hlen]

/-! ### Reads of a valid result -/

theorem State.readRxb_of_getElem? {s : State} {b : List Byte} {a : Nat} {v : Byte} (hw : s.des.Window b)
    (hb : b[a]? = some v) : s.readRxb a = .next (s.ret v) := by
  obtain ⟨ha, rfl⟩ := List.getElem?_eq_some_iff.mp hb
  exact State.readRxb_window hw ha

section
variable {s : State} {b : List Byte} (hv : s.des.resultValid = true) (hw : s.des.Window b)
include hv hw

theorem exec_rdcmd_window {v : Byte} (hb : b[2]? = some v) : exec .rdcmd s = .next (s.ret v) :=
  (State.withResult_valid hv _).trans (State.readRxb_of_getElem? hw hb)

theorem exec_rdplen_window : exec .rdplen s = .next (s.ret (natByte (b.length - minFrame))) := by
  rw [hw.1]
  exact State.withResult_valid hv _

theorem exec_rdpay_window {d v : Byte} (hd : d.toNat < b.length - minFrame) (hb : b[4 + d.toNat]? = some v) :
    exec (.rdpay d) s = .next (s.ret v) := by
  have hidx : s.des.payIndexOk d = true := decide_eq_true (by rwa [hw.1] at hd)
  calc s.withResult (s.withIndex (s.des.payIndexOk d) (s.readRxb (payAddr d)))
    _ = s.withIndex (s.des.payIndexOk d) (s.readRxb (payAddr d)) := State.withResult_valid hv _
    _ = s.readRxb (payAddr d) := if_pos hidx
    _ = .next (s.ret v) := State.readRxb_of_getElem? hw hb

end

end Sys2Proof.Machine

namespace Sys2Proof.Proofs
open Sys2Proof.Machine

/-- Settles O47: the state after ENCODE and DRAIN in T_IDLE. -/
theorem commandFrameSendsEncode : Obligations.CommandFrameSendsEncode := by
  intro s c p F hidle hF
  obtain ⟨hp, rfl⟩ := LevelF.encode_eq_some.mp hF
  exact orFault_eq_next.mpr (State.burst_idle c hidle hp)

/-- Settles O48: the state after ENCODE and DRAIN in T_BUSY. -/
theorem commandFrameWhileBusyIsRefused : Obligations.CommandFrameWhileBusyIsRefused := by
  intro s c p q hinv hbusy hq
  have ht := orFault_eq_next.mpr (hinv.ser.burst_busy c p hbusy hq)
  exact ⟨_, ht, rfl, rfl, rfl, rfl, rfl, rfl, rfl, rfl, rfl, rfl⟩

/-- Settles O51: the window holds exactly the frame's bytes, and the reads address its fields in it. -/
theorem responseFrameIsDecoded : Obligations.ResponseFrameIsDecoded := by
  intro s sync version c len k pl hctrl hfit
  have hlen := LevelF.responseFrame_length sync version c len k pl
  have hpl : (LevelF.responseFrame sync version c len pl k).length - minFrame = pl.length :=
    hlen ▸ Nat.add_sub_cancel_left 5 _
  obtain ⟨u, t, hu, ht, hw, hdone, hok⟩ :=
    State.feed_window hctrl (hlen ▸ Nat.le_add_right 5 _) (hlen ▸ hfit)
  have hv : t.des.resultValid = true := by simp [Des.resultValid, hdone, hok]
  refine ⟨t, ?_, hdone, hok, exec_rdcmd_window hv hw rfl, ⟨_, ?_, exec_rdplen_window hv hw⟩, fun d hd => ?_⟩
  · calc execAll [.rxarm, .rspFrame sync version c len pl k, .rxend] s
      _ = execAll [.rspFrame sync version c len pl k, .rxend] _ := execAll_cons rfl
      _ = execAll [.rxend] u := execAll_cons (orFault_eq_next.mpr hu)
      _ = .next t := execAll_cons (orFault_eq_next.mpr ht)
  · have := rxMax_le Config.device
    rw [hpl]
    exact LevelF.toNat_ofNat_length (by unfold txPMax; omega)
  · have hbyte := List.getElem?_eq_getElem hd
    exact ⟨_, hbyte, exec_rdpay_window hv hw (hpl ▸ hd)
      ((LevelF.responseFrame_payload sync version c len k hd).trans hbyte)⟩

/-- Settles O56: ENCODE stores below `|p|` and DRAIN nowhere; FEED writes DES and the inbound history only. -/
theorem frameOfWireFormats : Obligations.FrameOfWireFormats := by
  intro s t i h
  refine ⟨?_, ?_⟩
  · rintro c p rfl
    obtain ⟨bs, e, -, -, -, htxp⟩ := State.emits_next (orFault_eq_next.mp h)
    obtain ⟨hdes, -, hin, hsch, hcommon, hcell⟩ := s.load_frame c p
    have hd : t.des = s.des := by rw [e, hdes]
    have hc : t.common = { s.common with errSeq := (s.load c p).common.errSeq } := by rw [e, hcommon]
    exact ⟨hd, by rw [e, hin], by rw [e, hsch], by rw [hc], by rw [hc], by rw [hc],
      fun a ha => by rw [htxp, hcell a ha], fun a => by rw [hd]⟩
  · intro bs hi
    have hfeed : s.feed Config.device bs = .ok t := by
      rcases hi with ⟨sync, version, c, len, pl, k, rfl, rfl⟩ | ⟨la, s0, s1, rfl, rfl⟩ <;>
        exact orFault_eq_next.mp h
    obtain ⟨e, hsel, -, hcell⟩ := State.feed_next bs hfeed
    have hser : t.ser = s.ser := by rw [e]
    exact ⟨hser, by rw [e], by rw [e], by rw [e], by rw [e], hsel, hcell, fun a => by rw [hser]⟩

end Sys2Proof.Proofs
end

section
/-! PROOFS. Checksum accumulator (40_checksum_accumulator.md R118): SER and DES share no data, accumulators
included. Two runs side by side: what each unit does is determined by that unit, and for DES by CTRL. -/

namespace Sys2Proof.Machine

/-! ### SER and the outbound stream -/

/-- R118, R141: two runs agree in SER, and have pushed the same bytes since their streams were `l₁` and `l₂`. -/
structure SendsAlike (l₁ l₂ : List Byte) (s₁ s₂ : State) : Prop where
  ser     : s₁.ser = s₂.ser
  lineOut : ∃ bs, s₁.lineOut = l₁ ++ bs ∧ s₂.lineOut = l₂ ++ bs

/-- R138: what an EMIT that completes does, as `State.emitByte_next` and `emitStep_next` state it. -/
def State.Sends (cfg : Config) (s t : State) : Prop :=
  ∃ b acc, s.ser.nextByte cfg = .ok (b, acc) ∧
    t = { s with ser := { s.ser.advance with txCk := acc }, lineOut := s.lineOut ++ [b] }

section
variable {l₁ l₂ : List Byte} {s₁ s₂ t₁ t₂ : State}

theorem SendsAlike.refl (hser : s₁.ser = s₂.ser) : SendsAlike s₁.lineOut s₂.lineOut s₁ s₂ :=
  ⟨hser, [], by simp, by simp⟩

variable (h : SendsAlike l₁ l₂ s₁ s₂)
include h

/-- Updates that push nothing. -/
theorem SendsAlike.silent (hser : t₁.ser = t₂.ser) (h₁ : t₁.lineOut = s₁.lineOut)
    (h₂ : t₂.lineOut = s₂.lineOut) : SendsAlike l₁ l₂ t₁ t₂ := ⟨hser, by rw [h₁, h₂]; exact h.lineOut⟩

/-- Updates that leave SER and the outbound stream. -/
theorem SendsAlike.kept (h₁ : t₁.ser = s₁.ser ∧ t₁.lineOut = s₁.lineOut)
    (h₂ : t₂.ser = s₂.ser ∧ t₂.lineOut = s₂.lineOut) : SendsAlike l₁ l₂ t₁ t₂ :=
  h.silent (h₁.1.trans (h.ser.trans h₂.1.symm)) h₁.2 h₂.2

theorem SendsAlike.ret (v : Byte) : SendsAlike l₁ l₂ (s₁.ret v) (s₂.ret v) := h.silent h.ser rfl rfl

theorem SendsAlike.seqError : SendsAlike l₁ l₂ (s₁.raise .seqError) (s₂.raise .seqError) :=
  h.silent h.ser rfl rfl

theorem SendsAlike.resetRegisters : SendsAlike l₁ l₂ s₁.resetRegisters s₂.resetRegisters :=
  h.silent (by simp [h.ser]) rfl rfl

theorem SendsAlike.txClear : SendsAlike l₁ l₂ s₁.txClear s₂.txClear := by
  unfold State.txClear
  rw [h.ser]
  split
  · exact h.seqError
  · exact h.silent rfl rfl rfl

theorem SendsAlike.txCommand (d : Byte) : SendsAlike l₁ l₂ (s₁.txCommand d) (s₂.txCommand d) := by
  unfold State.txCommand
  rw [h.ser]
  split
  · exact h.seqError
  · exact h.silent rfl rfl rfl

theorem SendsAlike.txPush (d : Byte) : SendsAlike l₁ l₂ (s₁.txPush d) (s₂.txPush d) := by
  unfold State.txPush
  rw [h.ser]
  split
  · exact h.seqError
  · split
    · exact h.silent (by simp [h.ser]) rfl rfl
    · exact h.silent rfl rfl rfl

theorem SendsAlike.txGo : SendsAlike l₁ l₂ s₁.txGo s₂.txGo := by
  unfold State.txGo
  rw [h.ser]
  split
  · exact h.seqError
  · split
    · exact h.seqError
    · exact h.silent rfl rfl rfl

theorem SendsAlike.txPushes (p : List Byte) :
    SendsAlike l₁ l₂ (p.foldl State.txPush s₁) (p.foldl State.txPush s₂) := by
  induction p generalizing s₁ s₂ with
  | nil => exact h
  | cons d p ih => exact ih (h.txPush d)

/-- R103 ENCODE. -/
theorem SendsAlike.load (c : Byte) (p : List Byte) : SendsAlike l₁ l₂ (s₁.load c p) (s₂.load c p) :=
  ((h.txClear.txCommand c).txPushes p).txGo

/-- R138: the byte pushed and the accumulator after it are read from SER. -/
theorem SendsAlike.sends {cfg : Config} (e₁ : s₁.Sends cfg t₁) (e₂ : s₂.Sends cfg t₂) :
    SendsAlike l₁ l₂ t₁ t₂ := by
  obtain ⟨b, acc, hb, rfl⟩ := e₁
  obtain ⟨b', acc', hb', rfl⟩ := e₂
  rw [h.ser, hb'] at hb
  obtain ⟨rfl, rfl⟩ := Prod.mk.inj (Except.ok.inj hb)
  obtain ⟨bs, o₁, o₂⟩ := h.lineOut
  exact ⟨by simp [h.ser], bs ++ [b'], by simp [o₁], by simp [o₂]⟩

/-- R103 DRAIN: SER decides when it stops. -/
theorem SendsAlike.emits {cfg : Config} {fuel : Nat} (e₁ : s₁.emits cfg fuel = .ok t₁)
    (e₂ : s₂.emits cfg fuel = .ok t₂) : SendsAlike l₁ l₂ t₁ t₂ := by
  induction fuel generalizing s₁ s₂ with
  | zero =>
    obtain rfl := Except.ok.inj e₁
    obtain rfl := Except.ok.inj e₂
    exact h
  | succ fuel ih =>
    simp only [State.emits, h.ser] at e₁ e₂
    split at e₁
    · rw [if_pos ‹_›] at e₂
      split at e₁
      · split at e₂
        · exact ih (h.sends (State.emitByte_next ‹_›) (State.emitByte_next ‹_›)) e₁ e₂
        · cases e₂
      · cases e₁
    · rw [if_neg ‹_›] at e₂
      obtain rfl := Except.ok.inj e₁
      obtain rfl := Except.ok.inj e₂
      exact h

end

/-- R141: the instructions that leave SER and the outbound stream: the reads, WRREG, and those of DES. -/
def sparesSer : Instr → Bool
  | .rxarm => true
  | .recsel _ => true
  | .wrreg _ _ => true
  | i => isRead i || actsOnWindow i

theorem exec_sparesSer {s t : State} {i : Instr} (hi : sparesSer i = true) (h : exec i s = .next t) :
    t.ser = s.ser ∧ t.lineOut = s.lineOut := by
  have read (hr : isRead i = true) : t.ser = s.ser ∧ t.lineOut = s.lineOut := by
    rw [(exec_readAnswer hr h).frame.1]
    exact ⟨rfl, rfl⟩
  have fed {bs : List Byte} (hf : s.feed Config.device bs = .ok t) :
      t.ser = s.ser ∧ t.lineOut = s.lineOut := by
    rw [(State.feed_next bs hf).1]
    exact ⟨rfl, rfl⟩
  cases i with
  | nop | rdcmd | rdplen | rdpay | rdrec | rdnrec | rdreg => exact read rfl
  | rxarm | recsel => exact Host.Outcome.next.inj h ▸ ⟨rfl, rfl⟩
  | wrreg a d =>
    obtain rfl := Host.Outcome.next.inj h
    rcases s.writeReg_cases a d with ⟨-, e⟩ | ⟨-, e⟩ | ⟨-, -, e⟩ <;> rw [e] <;> exact ⟨rfl, rfl⟩
  | rxend => rcases State.rxEnd_next (orFault_eq_next.mp h) with ⟨-, rfl⟩ | ⟨-, r, -, rfl⟩ <;> exact ⟨rfl, rfl⟩
  | rxbyte b => exact fed ((State.feed_singleton _ s b).trans (orFault_eq_next.mp h))
  | rspFrame | discRecord => exact fed (orFault_eq_next.mp h)
  | txclr | txcmd | txpush | txgo | srst | emit | reset | cmdFrame => cases hi

/-- R118, R141: what an instruction does to SER and pushes is determined by SER. -/
theorem SendsAlike.exec {l₁ l₂ : List Byte} {s₁ s₂ t₁ t₂ : State} {i : Instr} (h : SendsAlike l₁ l₂ s₁ s₂)
    (e₁ : Machine.exec i s₁ = .next t₁) (e₂ : Machine.exec i s₂ = .next t₂) : SendsAlike l₁ l₂ t₁ t₂ := by
  have always {u₁ u₂ : State} (hu : SendsAlike l₁ l₂ u₁ u₂) (f₁ : (.next u₁ : Result) = .next t₁)
      (f₂ : (.next u₂ : Result) = .next t₂) : SendsAlike l₁ l₂ t₁ t₂ :=
    Host.Outcome.next.inj f₁ ▸ Host.Outcome.next.inj f₂ ▸ hu
  cases i with
  | txclr => exact always h.txClear e₁ e₂
  | txcmd d => exact always (h.txCommand d) e₁ e₂
  | txpush d => exact always (h.txPush d) e₁ e₂
  | txgo => exact always h.txGo e₁ e₂
  | srst => exact always (h.resetRegisters.ret 0x00) e₁ e₂
  | reset => exact always h.resetRegisters e₁ e₂
  | emit => exact h.sends (emitStep_next e₁).2 (emitStep_next e₂).2
  | cmdFrame c p => exact (h.load c p).emits (orFault_eq_next.mp e₁) (orFault_eq_next.mp e₂)
  | nop | rdcmd | rdplen | rdpay | rdrec | rdnrec | rdreg | rxarm | recsel | wrreg | rxend | rxbyte | rspFrame
  | discRecord => exact h.kept (exec_sparesSer rfl e₁) (exec_sparesSer rfl e₂)

/-! ### DES -/

/-- R163: of the common registers the verdict reads CTRL only. -/
theorem Common.verdict_congr {c₁ c₂ : Common} (h : c₁.ctrl = c₂.ctrl) : c₁.verdict = c₂.verdict := by
  cases c₁
  cases c₂
  obtain rfl := h
  rfl

theorem Des.close_congr {c₁ c₂ : Common} (h : c₁.ctrl = c₂.ctrl) (cfg : Config) (n : Nat) (r : Des) :
    r.close cfg c₁ n = r.close cfg c₂ n := by
  simp only [Des.close, Common.verdict_congr h]

theorem Des.receive_congr {c₁ c₂ : Common} (h : c₁.ctrl = c₂.ctrl) (cfg : Config) (b : Byte) (r : Des) :
    r.receive cfg c₁ b = r.receive cfg c₂ b := by
  simp only [Des.receive, Des.close_congr h]

/-- R168: two runs agree in DES and CTRL. -/
structure ReceivesAlike (s₁ s₂ : State) : Prop where
  des  : s₁.des = s₂.des
  ctrl : s₁.common.ctrl = s₂.common.ctrl

section
variable {s₁ s₂ t₁ t₂ : State} {cfg : Config} (h : ReceivesAlike s₁ s₂)
include h

/-- R161. -/
theorem ReceivesAlike.rxByte {b : Byte} (e₁ : s₁.rxByte cfg b = .ok t₁) (e₂ : s₂.rxByte cfg b = .ok t₂) :
    ReceivesAlike t₁ t₂ := by
  rcases State.rxByte_next e₁ with ⟨hn, rfl⟩ | ⟨hr, r, hrec, rfl⟩
  · rcases State.rxByte_next e₂ with ⟨-, rfl⟩ | ⟨hr, -⟩
    · exact ⟨h.des, h.ctrl⟩
    · exact absurd (h.des ▸ hr) hn
  · rcases State.rxByte_next e₂ with ⟨hn, -⟩ | ⟨-, r', hrec', rfl⟩
    · exact absurd (h.des ▸ hr) hn
    · rw [h.des, Des.receive_congr h.ctrl, hrec'] at hrec
      exact ⟨(Except.ok.inj hrec).symm, h.ctrl⟩

/-- R162. -/
theorem ReceivesAlike.rxEnd (e₁ : s₁.rxEnd cfg = .ok t₁) (e₂ : s₂.rxEnd cfg = .ok t₂) : t₁.des = t₂.des := by
  rcases State.rxEnd_next e₁ with ⟨hn, rfl⟩ | ⟨hr, r, hclose, rfl⟩
  · rcases State.rxEnd_next e₂ with ⟨-, rfl⟩ | ⟨hr, -⟩
    · exact h.des
    · exact absurd (h.des ▸ hr) hn
  · rcases State.rxEnd_next e₂ with ⟨hn, -⟩ | ⟨-, r', hclose', rfl⟩
    · exact absurd (h.des ▸ hr) hn
    · rw [h.des, Des.close_congr h.ctrl, hclose'] at hclose
      exact (Except.ok.inj hclose).symm

/-- R103 FEED. -/
theorem ReceivesAlike.feed {bs : List Byte} (e₁ : s₁.feed cfg bs = .ok t₁) (e₂ : s₂.feed cfg bs = .ok t₂) :
    t₁.des = t₂.des := by
  induction bs generalizing s₁ s₂ with
  | nil =>
    obtain rfl := Except.ok.inj e₁
    obtain rfl := Except.ok.inj e₂
    exact h.des
  | cons b bs ih =>
    simp only [State.feed] at e₁ e₂
    split at e₁
    · split at e₂
      · exact ih (h.rxByte ‹_› ‹_›) e₁ e₂
      · cases e₂
    · cases e₁

end

/-- R160, R195, R213, R260: the instructions that write DES in every state. -/
def setsDes : Instr → Bool
  | .rxarm => true
  | .recsel _ => true
  | .srst => true
  | .reset => true
  | _ => false

/-- R168: every other instruction leaves DES, but for those that act on an open window. -/
theorem Effect.des_kept {s t : State} {i : Instr} (h : Effect s i t) (hset : setsDes i = false)
    (hwin : actsOnWindow i = false) : t.des = s.des := by
  cases h with
  | answer | setCtrl | load | emit | frame => rfl
  | window r l v hi => simp [hwin] at hi
  | arm | select => cases hset
  | reset v hi => rcases hi with rfl | rfl <;> cases hset

/-- R118, R168: what an instruction does to DES is determined by DES and CTRL. -/
theorem ReceivesAlike.exec {s₁ s₂ t₁ t₂ : State} {i : Instr} (h : ReceivesAlike s₁ s₂)
    (e₁ : Machine.exec i s₁ = .next t₁) (e₂ : Machine.exec i s₂ = .next t₂) : t₁.des = t₂.des := by
  cases i with
  | rxarm | recsel | srst | reset =>
    obtain rfl := Host.Outcome.next.inj e₁
    obtain rfl := Host.Outcome.next.inj e₂
    simp [h.des]
  | rxend => exact h.rxEnd (orFault_eq_next.mp e₁) (orFault_eq_next.mp e₂)
  | rxbyte b => exact (h.rxByte (orFault_eq_next.mp e₁) (orFault_eq_next.mp e₂)).des
  | rspFrame | discRecord => exact h.feed (orFault_eq_next.mp e₁) (orFault_eq_next.mp e₂)
  | nop | rdcmd | rdplen | rdpay | rdrec | rdnrec | rdreg | wrreg | txclr | txcmd | txpush | txgo | emit | cmdFrame =>
    calc t₁.des
      _ = s₁.des := (exec_effect e₁).des_kept rfl rfl
      _ = s₂.des := h.des
      _ = t₂.des := ((exec_effect e₂).des_kept rfl rfl).symm

end Sys2Proof.Machine

namespace Sys2Proof.Proofs
open Sys2Proof.Machine

/-- Settles O59: two runs that agree in what a unit depends on, side by side through one instruction. -/
theorem serAndDesAreIndependent : Obligations.SerAndDesAreIndependent := by
  intro s₁ s₂ t₁ t₂ i e₁ e₂
  refine ⟨fun hser => ?_, fun hdes hctrl => ReceivesAlike.exec ⟨hdes, hctrl⟩ e₁ e₂⟩
  have ht : SendsAlike s₁.lineOut s₂.lineOut t₁ t₂ := (SendsAlike.refl hser).exec e₁ e₂
  exact ⟨ht.ser, ht.lineOut⟩

end Sys2Proof.Proofs
end

section
/-! PROOFS. Serializer (41_serializer.md): what each load op answers in T_IDLE and T_BUSY, the byte EMIT sends,
what the steps of SER leave unchanged, and the frame sent from TXGO to its last EMIT. -/

namespace Sys2Proof

/-! ### The words of the ops that use `d` only (R98) -/

/-- R96, R98: a word whose bits 15:12 and 7:0 are `op` and `d` decodes to the instruction of those fields. -/
theorem decode_dataWord {cfg : Config} {op : BitVec 4} {d : Byte} {i : Instr} (hi : i.wellFormed = true)
    (he : encode cfg i = .host (opWord op 0 d)) :
    decode cfg (.host (op.setWidth 16 <<< 12 ||| d.setWidth 16)) = .ok i := by
  have hw : (op.setWidth 16 <<< 12 ||| d.setWidth 16 : OpWord) = opWord op 0 d := by
    simpa using or_shift_eq_opWord op 0 d
  rw [hw, ← he]
  exact decode_encode cfg hi

end Sys2Proof

namespace Sys2Proof.Machine

/-! ### The load ops, state by state -/

section
variable {s : State}

theorem State.txClear_busy (h : s.ser.txState = .busy) : s.txClear = s.raise .seqError := if_pos h

theorem State.txClear_idle (h : s.ser.txState = .idle) :
    s.txClear = { s with ser := { s.ser with txLen := 0, txOvf := false }, rdata := 0x00 } := if_neg (by simp [h])

theorem State.txCommand_busy (h : s.ser.txState = .busy) (d : Byte) : s.txCommand d = s.raise .seqError := if_pos h

theorem State.txCommand_idle (h : s.ser.txState = .idle) (d : Byte) :
    s.txCommand d = { s with ser := { s.ser with txCmd := d }, rdata := 0x00 } := if_neg (by simp [h])

theorem State.txPush_busy (h : s.ser.txState = .busy) (d : Byte) : s.txPush d = s.raise .seqError := if_pos h

theorem State.txPush_full (h : s.ser.txState = .idle) (hn : s.ser.txLen = 255) (d : Byte) :
    s.txPush d = s.raise .txOverflow := by rw [State.txPush, if_neg (by simp [h]), if_pos hn]

theorem State.txPush_room (h : s.ser.txState = .idle) (hn : s.ser.txLen ≠ 255) (d : Byte) :
    s.txPush d = { s with
      ser := { s.ser with txp := s.ser.txp.store s.ser.storeAddr d, txLen := s.ser.txLen + 1 }
      rdata := 0x00 } := by rw [State.txPush, if_neg (by simp [h]), if_neg hn]

theorem State.txGo_busy (h : s.ser.txState = .busy) : s.txGo = s.raise .seqError := if_pos h

theorem State.txGo_overlong (h : s.ser.txState = .idle) (ho : s.ser.txOvf = true) :
    s.txGo = s.raise .seqError := by rw [State.txGo, if_neg (by simp [h]), if_pos ho]

theorem State.txGo_idle (h : s.ser.txState = .idle) (ho : s.ser.txOvf = false) :
    s.txGo = { s with ser := { s.ser with txState := .busy, txIdx := 0, txDone := false }, rdata := 0x00 } := by
  rw [State.txGo, if_neg (by simp [h]), if_neg (by simp [ho])]

end

/-! ### EMIT and the step with nothing scheduled -/

theorem exec_emit_busy {s : State} (h : s.ser.txState = .busy) :
    exec .emit s = orFault (s.emitByte Config.device) := if_pos h

theorem exec_emit_idle {s : State} (h : s.ser.txState = .idle) : exec .emit s = .refused .emitNotEnabled :=
  if_neg (by simp [h])

/-- R142 (log 2): with nothing scheduled SER sends if it is busy. -/
theorem step_unscheduled_busy {s : State} (hs : s.schedule = []) (hb : s.ser.txState = .busy) :
    step s = exec .emit s := by
  simp only [step, State.fetch, hs, idleStep, hb, if_true]
  rfl

theorem step_unscheduled_idle {s : State} (hs : s.schedule = []) (hi : s.ser.txState = .idle) :
    step s = .next s := by
  simp [step, State.fetch, hs, idleStep, hi]

/-! ### The byte at each frame position -/

theorem Ser.Loaded.lastIdx_eq {t : Ser} {p : List Byte} (h : t.Loaded p) : t.lastIdx = 4 + p.length := by
  rw [h.1]
  rfl

/-- R138: the byte sent and the accumulator after it, position by position. -/
theorem Ser.nextByte_spec (cfg : Config) {t : Ser} {p : List Byte} (hp : t.Loaded p) :
    ∃ b acc, t.nextByte cfg = .ok (b, acc) ∧
      (t.txIdx.toNat = 0 → b = cfg.syncByte ∧ acc = cfg.ckInit) ∧
      (t.txIdx.toNat = 1 → b = cfg.versionByte) ∧
      (t.txIdx.toNat = 2 → b = t.txCmd) ∧
      (t.txIdx.toNat = 3 → b = t.txLen) ∧
      (4 ≤ t.txIdx.toNat → t.txIdx.toNat < t.lastIdx → p[t.txIdx.toNat - 4]? = some b) ∧
      (1 ≤ t.txIdx.toNat → t.txIdx.toNat < t.lastIdx → acc = cfg.ckStep t.txCk b) ∧
      (t.txIdx.toNat = t.lastIdx → b = cfg.ckFinal t.txCk ∧ acc = t.txCk) := by
  have hlast := hp.lastIdx_eq
  have hparam (h : t.txIdx.toNat - 4 < p.length) :
      t.txp.load .txp t.paramAddr = .ok p[t.txIdx.toNat - 4] := Memory.load_ok (hp.2.cell_eq h)
  simp only [Ser.nextByte, ckaClear, ckaAbsorb, ckaResult]
  -- at each position the byte and the accumulator are the rule's own, and the other positions' clauses are void
  split
  · exact ⟨_, _, rfl, by grind⟩
  split
  · exact ⟨_, _, rfl, by grind⟩
  split
  · exact ⟨_, _, rfl, by grind⟩
  split
  · exact ⟨_, _, rfl, by grind⟩
  split
  · rw [hparam (by omega)]
    exact ⟨_, _, rfl, by grind⟩
  · exact ⟨_, _, rfl, by grind⟩

theorem State.emitByte_ok {cfg : Config} {s : State} {b acc : Byte} (h : s.ser.nextByte cfg = .ok (b, acc)) :
    s.emitByte cfg = .ok { s with
      ser := { s.ser.advance with txCk := acc }, lineOut := s.lineOut ++ [b] } := by
  simp only [State.emitByte, h]
  rfl

/-! ### What the steps of SER leave unchanged -/

/-- R134 to R138: the next states of the load ops and EMIT. `exec_serAnswer` ties it to `exec`. -/
inductive SerAnswer (s : State) : Instr → State → Prop
  /-- A load op in T_BUSY, or TXGO after an over-long load. -/
  | refused {i : Instr} (hi : i ≠ .emit) : SerAnswer s i (s.raise .seqError)
  /-- The 256th TXPUSH. -/
  | overflow (d : Byte) : SerAnswer s (.txpush d) (s.raise .txOverflow)
  | cleared : SerAnswer s .txclr { s with ser := { s.ser with txLen := 0, txOvf := false }, rdata := 0x00 }
  | command (d : Byte) : SerAnswer s (.txcmd d) { s with ser := { s.ser with txCmd := d }, rdata := 0x00 }
  | pushed (d : Byte) : SerAnswer s (.txpush d) { s with
      ser := { s.ser with txp := s.ser.txp.store s.ser.storeAddr d, txLen := s.ser.txLen + 1 }
      rdata := 0x00 }
  | started : SerAnswer s .txgo { s with
      ser := { s.ser with txState := .busy, txIdx := 0, txDone := false }, rdata := 0x00 }
  | sent (b acc : Byte) : SerAnswer s .emit { s with
      ser := { s.ser.advance with txCk := acc }, lineOut := s.lineOut ++ [b] }

theorem SerAnswer.txClear (s : State) : SerAnswer s .txclr s.txClear := by
  rcases s.txClear_cases with e | ⟨-, e⟩ <;> rw [e]
  · exact .refused (by simp)
  · exact .cleared

theorem SerAnswer.txCommand (s : State) (d : Byte) : SerAnswer s (.txcmd d) (s.txCommand d) := by
  rcases s.txCommand_cases d with e | ⟨-, e⟩ <;> rw [e]
  · exact .refused (by simp)
  · exact .command d

theorem SerAnswer.txPush (s : State) (d : Byte) : SerAnswer s (.txpush d) (s.txPush d) := by
  rcases s.txPush_cases d with e | ⟨-, e | ⟨-, e⟩⟩ <;> rw [e]
  · exact .refused (by simp)
  · exact .overflow d
  · exact .pushed d

theorem SerAnswer.txGo (s : State) : SerAnswer s .txgo s.txGo := by
  rcases s.txGo_cases with e | ⟨-, -, e⟩ <;> rw [e]
  · exact .refused (by simp)
  · exact .started

/-- Every next state of a load op or EMIT is one of its answers. -/
theorem exec_serAnswer {s t : State} {i : Instr} (h : exec i s = .next t)
    (hi : i = .emit ∨ i = .txclr ∨ i = .txgo ∨ ∃ d, i = .txcmd d ∨ i = .txpush d) : SerAnswer s i t := by
  rcases hi with rfl | rfl | rfl | ⟨d, rfl | rfl⟩
  · obtain ⟨-, b, acc, -, rfl⟩ := emitStep_next h
    exact .sent b acc
  · exact Host.Outcome.next.inj h ▸ .txClear s
  · exact Host.Outcome.next.inj h ▸ .txGo s
  · exact Host.Outcome.next.inj h ▸ .txCommand s d
  · exact Host.Outcome.next.inj h ▸ .txPush s d

section
variable {s t : State} {i : Instr} (h : SerAnswer s i t)
include h

/-- R141: they write SER, SEQ, `rdata` and the outbound stream only. -/
theorem SerAnswer.frame : t = { s with
    ser := t.ser, common := { s.common with errSeq := t.common.errSeq }, rdata := t.rdata
    lineOut := t.lineOut } := by
  cases h <;> rfl

/-- R234: none clears SEQ. -/
theorem SerAnswer.sticky (hs : s.common.errSeq = true) : t.common.errSeq = true := by
  cases h with
  | refused => rfl
  | overflow | cleared | command | pushed | started | sent => exact hs

/-- R45, R27: only EMIT sends. -/
theorem SerAnswer.silent (hi : i ≠ .emit) : t.lineOut = s.lineOut ∧ t.ser.txCk = s.ser.txCk := by
  cases h with
  | sent => exact absurd rfl hi
  | refused | overflow | cleared | command | pushed | started => exact ⟨rfl, rfl⟩

/-- R138 (log 8): EMIT answers no host op. -/
theorem SerAnswer.emit_common (hi : i = .emit) : t.common = s.common ∧ t.rdata = s.rdata := by
  cases h with
  | refused hne => exact absurd hi hne
  | sent => exact ⟨rfl, rfl⟩
  | overflow | cleared | command | pushed | started => cases hi

theorem SerAnswer.txCmd (hi : ∀ d, i ≠ .txcmd d) : t.ser.txCmd = s.ser.txCmd := by
  cases h with
  | command d => exact absurd rfl (hi d)
  | sent => exact s.ser.advance_loaded.1
  | refused | overflow | cleared | pushed | started => rfl

theorem SerAnswer.txLen (hclr : i ≠ .txclr) (hpush : ∀ d, i ≠ .txpush d) :
    t.ser.txLen = s.ser.txLen ∧ t.ser.txOvf = s.ser.txOvf := by
  cases h with
  | cleared => exact absurd rfl hclr
  | overflow d | pushed d => exact absurd rfl (hpush d)
  | sent =>
    obtain ⟨-, hlen, hovf, -⟩ := s.ser.advance_loaded
    exact ⟨hlen, hovf⟩
  | refused | command | started => exact ⟨rfl, rfl⟩

theorem SerAnswer.txState (hgo : i ≠ .txgo) (hemit : i ≠ .emit) :
    t.ser.txState = s.ser.txState ∧ t.ser.txIdx = s.ser.txIdx ∧ t.ser.txDone = s.ser.txDone := by
  cases h with
  | started => exact absurd rfl hgo
  | sent => exact absurd rfl hemit
  | refused | overflow | cleared | command | pushed => exact ⟨rfl, rfl, rfl⟩

/-- R61, R136: TXPUSH stores at `tx_len`, nothing else stores in TXP. -/
theorem SerAnswer.txp_cell {a : Nat} (ha : (∀ d, i ≠ .txpush d) ∨ a ≠ s.ser.storeAddr) :
    t.ser.txp.cell a = s.ser.txp.cell a := by
  cases h with
  | pushed d => exact Memory.cell_store_ne _ _ (ha.resolve_left fun hne => hne d rfl)
  | sent =>
    obtain ⟨-, -, -, htxp⟩ := s.ser.advance_loaded
    exact congrArg (·.cell a) htxp
  | refused | overflow | cleared | command | started => rfl

end

/-! ### A frame in flight -/

/-- R46 I3, of the parameters loaded. -/
theorem SerInv.acc {cfg : Config} {t : Ser} {p : List Byte} (h : SerInv cfg t) (hb : t.txState = .busy)
    (hp : t.Loaded p) (h1 : 1 ≤ t.txIdx.toNat) : t.txCk = t.accAt cfg p t.txIdx.toNat := by
  obtain ⟨q, hq, hck⟩ := h.loaded
  obtain rfl := hp.unique hq
  exact hck hb h1

/-- R138: an EMIT of a frame in flight completes and sends the frame's next byte. -/
theorem Inv.exec_emit {s : State} {p : List Byte} (h : Inv s) (hb : s.ser.txState = .busy) (hp : s.ser.Loaded p) :
    ∃ b, (s.ser.frame Config.device p)[s.ser.txIdx.toNat]? = some b ∧
      Machine.exec .emit s = .next { s with
        ser := { s.ser.advance with txCk := s.ser.accAt Config.device p (s.ser.txIdx.toNat + 1) }
        lineOut := s.lineOut ++ [b] } := by
  obtain ⟨b, hbyte, hs⟩ := State.emitByte_spec hp (h.ser.busyIdx hb) (h.ser.acc hb hp)
  exact ⟨b, hbyte, by rw [exec_emit_busy hb, hs]; rfl⟩

theorem run_succ {s t : State} (k : Nat) (h : step s = .next t) :
    Host.Core.run core (k + 1) s = Host.Core.run core k t := by
  simp only [Host.Core.run, show core.step s = .next t from h]

theorem State.emits_idle {cfg : Config} {s : State} (h : s.ser.txState ≠ .busy) (fuel : Nat) :
    s.emits cfg fuel = .ok s := by
  cases fuel <;> simp [State.emits, h]

/-- R142 (log 2): with nothing scheduled, a run of the machine is a burst of EMITs. -/
theorem run_unscheduled {fuel : Nat} : ∀ {s t : State}, s.schedule = [] →
    s.emits Config.device fuel = .ok t → Host.Core.run core fuel s = .next t := by
  induction fuel with
  | zero =>
    intro s t _ h
    exact congrArg Host.Outcome.next (Except.ok.inj h)
  | succ fuel ih =>
    intro s t hs h
    simp only [State.emits] at h
    split at h
    · rename_i hb
      split at h
      · rename_i u hu
        have hstep : step s = .next u := by rw [step_unscheduled_busy hs hb, exec_emit_busy hb, hu]; rfl
        obtain ⟨b, acc, -, rfl⟩ := State.emitByte_next hu
        exact (run_succ fuel hstep).trans (ih hs h)
      · cases h
    · rename_i hb
      obtain rfl := Except.ok.inj h
      exact (run_succ fuel (step_unscheduled_idle hs (TxState.idle_of_ne hb))).trans
        (ih hs (State.emits_idle hb fuel))

/-! ### From TXGO to the last EMIT -/

/-- R141: in T_BUSY the steps that may be interleaved with the EMITs leave SER and the outbound stream. -/
theorem Effect.besideSending {s t : State} {i : Instr} (h : Effect s i t) (hb : s.ser.txState = .busy)
    (hi : Machine.besideSending i = true) : t.ser = s.ser ∧ t.lineOut = s.lineOut := by
  cases h with
  | load u _ hidle => simp [hb] at hidle
  | emit | frame => cases hi
  | reset v hr => rcases hr with rfl | rfl <;> cases hi
  | answer | setCtrl | arm | select | window => exact ⟨rfl, rfl⟩

/-- R139: the state `u` is `k` EMITs after a TXGO that was accepted in `s` with the parameters `p` loaded. -/
structure State.Sending (s : State) (p : List Byte) (k : Nat) (u : State) : Prop where
  inv     : Inv u
  busy    : u.ser.txState = .busy
  idx     : u.ser.txIdx.toNat = k
  loaded  : u.ser.Loaded p
  kept    : u.ser.txCmd = s.ser.txCmd ∧ u.ser.txLen = s.ser.txLen ∧ u.ser.txp = s.ser.txp
  lineOut : u.lineOut = s.lineOut ++ (s.ser.frame Config.device p).take k

theorem State.Sending.start {s : State} {p : List Byte} (h : Inv s) (hidle : s.ser.txState = .idle)
    (hovf : s.ser.txOvf = false) (hp : s.ser.Loaded p) :
    ∃ u, exec .txgo s = .next u ∧ s.Sending p 0 u := by
  have hgo : exec .txgo s = .next _ := congrArg Host.Outcome.next (State.txGo_idle hidle hovf)
  exact ⟨_, hgo, h.of_exec hgo, rfl, rfl, hp, ⟨rfl, rfl, rfl⟩, by simp⟩

section
variable {s u : State} {p : List Byte} {k : Nat} (h : s.Sending p k u)
include h

theorem State.Sending.acc (h1 : 1 ≤ k) : u.ser.txCk =
    LevelF.ckFold Config.device (LevelF.slice (s.ser.frame Config.device p) 1 (min k (4 + p.length))) := by
  have hck := h.inv.ser.acc h.busy h.loaded (h.idx ▸ h1)
  rwa [Ser.accAt, h.idx, h.loaded.lastIdx_eq, Ser.frame, h.kept.1] at hck

theorem State.Sending.beside {i : Instr} (hi : besideSending i = true) :
    ∃ v, exec i u = .next v ∧ s.Sending p k v := by
  obtain ⟨v, hv, hinv⟩ := h.inv.exec i fun _ => h.busy
  obtain ⟨hser, hout⟩ := (exec_effect hv).besideSending h.busy hi
  exact ⟨v, hv, hinv, hser ▸ h.busy, hser ▸ h.idx, hser ▸ h.loaded, hser ▸ h.kept, hout.trans h.lineOut⟩

/-- R138: an EMIT, wherever in the frame. -/
theorem State.Sending.exec_emit : ∃ v, exec .emit u = .next v ∧
    v.lineOut = s.lineOut ++ (s.ser.frame Config.device p).take (k + 1) ∧ ∃ acc,
      v.ser = { u.ser.advance with txCk := acc } := by
  obtain ⟨b, hbyte, hv⟩ := h.inv.exec_emit h.busy h.loaded
  rw [Ser.frame, h.kept.1, h.idx] at hbyte
  exact ⟨_, hv, by simp [h.lineOut, List.take_add_one, Ser.frame, hbyte], _, rfl⟩

/-- An EMIT before the checksum byte. -/
theorem State.Sending.emit (hk : k < 4 + p.length) : ∃ v, exec .emit u = .next v ∧ s.Sending p (k + 1) v := by
  obtain ⟨v, hv, hout, acc, hser⟩ := h.exec_emit
  have hlt : u.ser.txIdx.toNat < u.ser.lastIdx := by rwa [h.idx, h.loaded.lastIdx_eq]
  rw [Ser.advance_next hlt.ne] at hser
  refine ⟨v, hv, h.inv.of_exec hv, ?_, ?_, ?_, ?_, hout⟩ <;> rw [hser]
  · exact h.busy
  · exact (Ser.txIdx_succ hlt.le).trans (congrArg (· + 1) h.idx)
  · exact h.loaded
  · exact h.kept

/-- The EMIT of the checksum byte. -/
theorem State.Sending.emit_last (hk : k = 4 + p.length) : ∃ t, exec .emit u = .next t ∧
    t.lineOut = s.lineOut ++ s.ser.frame Config.device p ∧ t.ser.txState = .idle ∧ t.ser.txDone = true ∧
    t.ser.txIdx = 0 ∧ t.ser.txCmd = s.ser.txCmd ∧ t.ser.txLen = s.ser.txLen ∧ t.ser.txp = s.ser.txp := by
  obtain ⟨t, ht, hout, acc, hser⟩ := h.exec_emit
  rw [Ser.advance_last (by rw [h.idx, h.loaded.lastIdx_eq, hk])] at hser
  rw [List.take_of_length_le (by rw [Ser.frame, LevelF.commandFrame_length]; omega)] at hout
  exact ⟨t, ht, hout, by rw [hser], by rw [hser], by rw [hser], by rw [hser]; exact h.kept⟩

end

theorem emitCount_emit (is : List Instr) : emitCount (.emit :: is) = emitCount is + 1 := by simp [emitCount]

theorem emitCount_beside {i : Instr} (hi : besideSending i = true) (is : List Instr) :
    emitCount (i :: is) = emitCount is :=
  List.countP_cons_of_neg fun he => by rw [eq_of_beq he] at hi; cases hi

/-- R139: the EMITs before the checksum byte, whatever is interleaved. -/
theorem State.Sending.execAll {s : State} {p : List Byte} (is : List Instr) : ∀ {u : State} {k : Nat},
    s.Sending p k u → (∀ i ∈ is, i = .emit ∨ besideSending i = true) → k + emitCount is ≤ 4 + p.length →
    ∃ v, Machine.execAll is u = .next v ∧ s.Sending p (k + emitCount is) v := by
  induction is with
  | nil => exact fun h _ _ => ⟨_, rfl, h⟩
  | cons i is ih =>
    intro u k h hi hk
    obtain ⟨hi, his⟩ := List.forall_mem_cons.mp hi
    rcases hi with rfl | hi
    · rw [emitCount_emit, Nat.add_comm _ 1, ← Nat.add_assoc] at hk ⊢
      obtain ⟨v, hv, hsend⟩ := h.emit (by omega)
      rw [execAll_cons hv]
      exact ih hsend his hk
    · rw [emitCount_beside hi] at hk ⊢
      obtain ⟨v, hv, hsend⟩ := h.beside hi
      rw [execAll_cons hv]
      exact ih hsend his hk

/-- R71: one sequence after another. -/
theorem execAll_append {is js : List Instr} : ∀ {s t : State}, execAll is s = .next t →
    execAll (is ++ js) s = execAll js t := by
  induction is with
  | nil =>
    intro s t h
    exact congrArg (execAll js) (Host.Outcome.next.inj h)
  | cons i is ih =>
    intro s t h
    simp only [execAll, List.cons_append] at h ⊢
    split at h
    · exact ih h
    · cases h
    · cases h

end Sys2Proof.Machine

namespace Sys2Proof.Proofs
open Sys2Proof.Machine

/-- Settles O21, in each state of SER. -/
theorem txclrDiscardsParameters : Obligations.TxclrDiscardsParameters := fun _ =>
  ⟨decode_encode Config.device (i := .txclr) rfl,
    fun hb => congrArg Host.Outcome.next (State.txClear_busy hb),
    fun hi => congrArg Host.Outcome.next (State.txClear_idle hi)⟩

/-- Settles O22, in each state of SER. -/
theorem txcmdSetsCommandCode : Obligations.TxcmdSetsCommandCode := fun _ d =>
  ⟨decode_dataWord (op := 0x2) (i := .txcmd d) rfl rfl,
    fun hb => congrArg Host.Outcome.next (State.txCommand_busy hb d),
    fun hi => congrArg Host.Outcome.next (State.txCommand_idle hi d)⟩

/-- Settles O23: busy, full, or one more cell in use. -/
theorem txpushAppendsParameter : Obligations.TxpushAppendsParameter := by
  intro s d
  refine ⟨decode_dataWord (op := 0x3) (i := .txpush d) rfl rfl,
    fun hb => congrArg Host.Outcome.next (State.txPush_busy hb d), fun hi hfull => ?_, fun hi hroom => ?_⟩
  · have hn : s.ser.txLen = 255 := BitVec.eq_of_toNat_eq hfull
    exact congrArg Host.Outcome.next (State.txPush_full hi hn d)
  · have hn : s.ser.txLen ≠ 255 := fun e => hroom (by rw [e]; rfl)
    exact ⟨_, congrArg Host.Outcome.next (State.txPush_room hi hn d), rfl, txLen_succ hn,
      fun p hp => hp.push hn d⟩

/-- Settles O24: busy, over-long, or started. -/
theorem txgoStartsFrame : Obligations.TxgoStartsFrame := fun _ =>
  ⟨decode_encode Config.device (i := .txgo) rfl,
    fun hb => congrArg Host.Outcome.next (State.txGo_busy hb),
    fun hi ho => congrArg Host.Outcome.next (State.txGo_overlong hi ho),
    fun hi ho => congrArg Host.Outcome.next (State.txGo_idle hi ho)⟩

/-- Settles O12, in each state of SER. -/
theorem unscheduledStepIsSersOrNone : Obligations.UnscheduledStepIsSersOrNone := fun _ =>
  ⟨step_unscheduled_busy, step_unscheduled_idle, exec_emit_idle⟩

/-- Settles O53, answer by answer. -/
theorem frameOfSerializerSteps : Obligations.FrameOfSerializerSteps := by
  intro s t i h hi
  have ha : SerAnswer s i t := exec_serAnswer h hi
  have e := ha.frame
  have hdes : t.des = s.des := by rw [e]
  exact ⟨hdes, fun hne => (ha.silent hne).1, by rw [e], by rw [e], by rw [e], by rw [e], by rw [e],
    ha.sticky, fun hne => (ha.silent hne).2, ha.emit_common, ha.txCmd, ha.txLen, ha.txState,
    fun _ _ hne => ha.txp_cell (.inr hne), fun _ hne => ha.txp_cell (.inl hne), fun _ => by rw [hdes]⟩

/-- Settles O25: the byte of the position by `Ser.nextByte_spec`, the position after it by `Ser.advance`. -/
theorem emitSendsNextByte : Obligations.EmitSendsNextByte := by
  intro s p hb hp _
  obtain ⟨b, acc, hn, h0, h1, h2, h3, hparam, habsorb, hlast⟩ := Ser.nextByte_spec Config.device hp
  have ht : exec .emit s = .next _ := (exec_emit_busy hb).trans (congrArg orFault (State.emitByte_ok hn))
  refine ⟨b, acc, fun he => ?_, fun hne => ?_, fun e => h0 (by rw [e]; rfl), fun e => h1 (by rw [e]; rfl),
    fun e => h2 (by rw [e]; rfl), fun e => h3 (by rw [e]; rfl), hparam, habsorb, hlast⟩
  · rwa [Ser.advance_last he] at ht
  · rwa [Ser.advance_next hne] at ht

/-- Settles O5: the run is a burst of EMITs, one more than the position is short of the checksum's. -/
theorem startedFrameIsFinished : Obligations.StartedFrameIsFinished := by
  intro s p hinv hs hb hp
  have hi := hinv.ser.busyIdx hb
  have hlast : s.ser.lastIdx = 4 + s.ser.txLen.toNat := rfl
  have hsent := State.emits_spec (s.ser.lastIdx - s.ser.txIdx.toNat)
    (fuel := 5 + s.ser.txLen.toNat - s.ser.txIdx.toNat) hb hp (by omega) (by omega) (hinv.ser.acc hb hp)
  exact ⟨_, run_unscheduled hs hsent, rfl, rfl, rfl, rfl, rfl⟩

/-- Settles O26: `State.Sending` holds from TXGO on, and the EMIT of the checksum byte ends it. -/
theorem serializerSendsEncode : Obligations.SerializerSendsEncode := by
  intro s p F is hinv hidle hovf hp hF his hcount
  obtain ⟨-, rfl⟩ := LevelF.encode_eq_some.mp hF
  obtain ⟨u, hgo, hstart⟩ := State.Sending.start hinv hidle hovf hp
  refine ⟨?_, ?_⟩
  · rintro js ks rfl
    have hle : emitCount js ≤ 4 + p.length := by
      rw [← hcount, emitCount, emitCount, List.countP_append]
      exact Nat.le_add_right _ _
    obtain ⟨v, hv, hsend⟩ := hstart.execAll js (fun i hi => his i (List.mem_append_left ks hi))
      (by rwa [Nat.zero_add])
    rw [Nat.zero_add] at hsend
    exact ⟨v, (execAll_cons hgo).trans hv, hsend.busy, hsend.idx, hsend.lineOut, hsend.acc⟩
  · obtain ⟨v, hv, hsend⟩ := hstart.execAll is his (by omega)
    obtain ⟨t, ht, hdone⟩ := hsend.emit_last (by omega)
    refine ⟨t, ?_, hdone⟩
    calc execAll (.txgo :: (is ++ [.emit])) s
      _ = execAll (is ++ [.emit]) u := execAll_cons hgo
      _ = execAll [.emit] v := execAll_append hv
      _ = .next t := execAll_cons ht

end Sys2Proof.Proofs
end

section
/-! PROOFS. Deserializer (42_deserializer.md): what RXBYTE, RXEND and the window close do to any window, what the
steps of DES leave unchanged, and what a window reports of the bytes delivered since RXARM. -/

namespace Sys2Proof.LevelF

theorem slice_length {s : List Byte} {i j : Nat} (hj : j ≤ s.length) : (slice s i j).length = j - i := by
  rw [slice, List.length_drop, List.length_take, Nat.min_eq_left hj]

/-- R13: the bytes of a subsequence, by their place in the whole. -/
theorem slice_getElem? (s : List Byte) {i j k : Nat} (hk : i + k < j) : (slice s i j)[k]? = s[i + k]? := by
  rw [slice, List.getElem?_drop, List.getElem?_take_of_lt hk]

/-- R155, R156: `Decode` looks at the length only. -/
theorem decode_eq_ok {b P : List Byte} {c : Byte} :
    decode b = .ok (c, P) ↔ minFrame ≤ b.length ∧ b[2]? = some c ∧ slice b hdrLen (b.length - 1) = P := by
  unfold decode
  split
  · rename_i hshort
    simp [Nat.not_le.mpr hshort]
  · rename_i hlong
    have hlong : minFrame ≤ b.length := Nat.not_lt.mp hlong
    have h2 : 2 < b.length := Nat.lt_of_lt_of_le (by decide) hlong
    simp [hlong, List.getElem?_eq_getElem h2]

/-- R159: the payload of a command frame is its parameters. -/
theorem commandFrame_payload (cfg : Config) (c : Byte) (p : List Byte) :
    slice (commandFrame cfg c p) hdrLen ((commandFrame cfg c p).length - 1) = p := by
  have hend : (commandFrame cfg c p).length - 1 = p.length + 1 + 1 + 1 + 1 := by simp; omega
  rw [slice, hend, commandFrame_eq]
  simp [hdrLen]

/-- R123: the last byte of a command frame is the checksum of its region. -/
theorem checksumOk_commandFrame (cfg : Config) (c : Byte) (p : List Byte) :
    checksumOk cfg (commandFrame cfg c p) = true := by
  have hlen := commandFrame_length cfg c p
  have hlast : (commandFrame cfg c p).getLast? = some (ck cfg (region (commandFrame cfg c p))) := by
    rw [List.getLast?_eq_getElem?, hlen, show 5 + p.length - 1 = 4 + p.length by omega, commandFrame_last]
  simp [checksumOk, hlast, minFrame]

theorem lengthOk_commandFrame (cfg : Config) (c : Byte) {p : List Byte} (hp : p.length ≤ txPMax) :
    lengthOk (commandFrame cfg c p) = true := by
  have h3 : (commandFrame cfg c p)[3]? = some (BitVec.ofNat 8 p.length) := rfl
  rw [lengthOk, h3, Option.map_some, toNat_ofNat_length hp]
  simp [minFrame]

end Sys2Proof.LevelF

namespace Sys2Proof.Machine

/-! ### The window close -/

section
variable (c : Common) {l k : Bool}

/-- R163, R233: the verdict of a long window in its three cases. -/
theorem Common.verdict_length (hlenv : c.lenv = true) (hl : l = false) : c.verdict l k = (.malformed, .length) := by
  simp [Common.verdict, hlenv, hl]

theorem Common.verdict_checksum (hl : c.lenv = false ∨ l = true) (hckv : c.ckv = true) (hk : k = false) :
    c.verdict l k = (.malformed, .checksum) := by
  rcases hl with hl | hl <;> simp [Common.verdict, hl, hckv, hk]

theorem Common.verdict_ok (hl : c.lenv = false ∨ l = true) (hk : c.ckv = false ∨ k = true) :
    c.verdict l k = (.ok, .none) := by
  rcases hl with hl | hl <;> rcases hk with hk | hk <;> simp [Common.verdict, hl, hk]

end

/-- R169: where `Decode` fails the report is SHORT, and where it gives a message the verdict on the two flags. -/
theorem Common.report_undecoded {cfg : Config} (c : Common) {b : List Byte} {e : LevelF.DecodeFailure}
    (h : LevelF.decode b = .error e) : c.report cfg b = (.malformed, .short) := by
  simp [Common.report, h]

theorem Common.report_decoded {cfg : Config} (c : Common) {b P : List Byte} {cmd : Byte}
    (h : LevelF.decode b = .ok (cmd, P)) :
    c.report cfg b = c.verdict (LevelF.lengthOk b) (LevelF.checksumOk cfg b) :=
  Common.report_long c (LevelF.decode_eq_ok.mp h).1

/-- R163: DES after the close of a window of at least 5 bytes with the flags `l` and `k`. -/
def Des.decided (c : Common) (l k : Bool) (r : Des) : Des :=
  { r with
    rxState := .done, lenOk := l, ckOk := k, rxRes := (c.verdict l k).1, rxCause := (c.verdict l k).2 }

theorem Des.close_short (cfg : Config) (c : Common) {n : Nat} (r : Des) (h : n < minFrame) :
    r.close cfg c n = .ok { r with
      rxState := .done, lenOk := false, ckOk := false, rxRes := .malformed, rxCause := .short } := if_pos h

/-- R163 of any window of at least 5 bytes, whatever the accumulator holds. -/
theorem Des.close_long {cfg : Config} {r : Des} {b : List Byte} (c : Common) (h : r.Window b)
    (hn : minFrame ≤ b.length) :
    r.close cfg c b.length =
      .ok (r.decided c (LevelF.lengthOk b) (b.getLast? == some (cfg.ckFinal r.rxCk))) := by
  have h3 : 3 < b.length := Nat.lt_of_lt_of_le (by decide) hn
  have hlast : b.length - 1 < b.length := by omega
  have hl : lenFlag b.length b[3] = LevelF.lengthOk b := by
    simp [lenFlag, LevelF.lengthOk, hn, List.getElem?_eq_getElem h3]
  have hk : ckFlag cfg r.rxCk b[b.length - 1] = (b.getLast? == some (cfg.ckFinal r.rxCk)) := by
    rw [List.getLast?_eq_getElem?, List.getElem?_eq_getElem hlast, Option.some_beq_some, ckFlag, ckaResult,
      Bool.beq_comm]
  rw [Des.close, if_neg (Nat.not_lt.mpr hn)]
  simp only [lenAddr, Memory.load_ok (h.2.cell_eq h3), Memory.load_ok (h.2.cell_eq hlast), hl, hk, Des.decided]

theorem Des.Window.close_completes {r : Des} {b : List Byte} (h : r.Window b) (cfg : Config) (c : Common) :
    ∃ r', r.close cfg c b.length = .ok r' := by
  by_cases hn : b.length < minFrame
  · exact ⟨_, Des.close_short cfg c r hn⟩
  · exact ⟨_, Des.close_long c h (Nat.not_lt.mp hn)⟩

/-- R163: a close writes the state, the flags, the result and the cause only. -/
theorem Des.close_frame {cfg : Config} {c : Common} {n : Nat} {r r' : Des} (h : r.close cfg c n = .ok r') :
    r' = { r with
      rxState := .done, lenOk := r'.lenOk, ckOk := r'.ckOk, rxRes := r'.rxRes, rxCause := r'.rxCause } := by
  obtain ⟨hstate, hcnt, hck, hfull, hsel, hrxb⟩ := Des.close_next h
  rw [← hstate, ← hcnt, ← hck, ← hfull, ← hsel, ← hrxb]

/-! ### RXBYTE and RXEND of any window -/

theorem State.rxByte_closed {s : State} (h : s.des.rxState ≠ .recv) (cfg : Config) (x : Byte) :
    s.rxByte cfg x = .ok (s.recordIn x false) := if_neg h

theorem State.rxByte_open {cfg : Config} {s : State} {x : Byte} {r : Des} (h : s.des.rxState = .recv)
    (hr : s.des.receive cfg s.common x = .ok r) :
    s.rxByte cfg x = .ok (({ s with des := r } : State).recordIn x true) := by
  rw [State.rxByte, if_pos h, hr]

theorem State.rxEnd_closed {s : State} (h : s.des.rxState ≠ .recv) (cfg : Config) :
    s.rxEnd cfg = .ok (s.ret 0x00) := if_neg h

theorem State.rxEnd_open {cfg : Config} {s : State} {r : Des} (h : s.des.rxState = .recv)
    (hr : s.des.close cfg s.common s.des.rxCnt.toNat = .ok r) :
    s.rxEnd cfg = .ok { s with des := r, rdata := 0x00 } := by
  rw [State.rxEnd, if_pos h, hr]

/-- R161: the accumulator after one more byte: the byte before it is absorbed from byte number 2 on. -/
theorem Des.absorbPrevious_window {r : Des} {b : List Byte} (h : r.Window b) (cfg : Config) :
    ∃ acc, r.absorbPrevious cfg = .ok acc ∧ (b.length < 2 → acc = r.rxCk) ∧
      (2 ≤ b.length → ∃ y, b.getLast? = some y ∧ acc = cfg.ckStep r.rxCk y) := by
  have hcnt : r.rxCnt.toNat = b.length := h.1.symm
  unfold Des.absorbPrevious
  split
  · rename_i h2
    have hlast : b.length - 1 < b.length := by omega
    have hcell : r.rxb.cell (r.storeAddr - 1) = some b[b.length - 1] := by
      rw [Des.storeAddr, hcnt]
      exact h.2.cell_eq hlast
    rw [Memory.load_ok hcell]
    exact ⟨_, rfl, by omega, fun _ =>
      ⟨_, List.getLast?_eq_getElem?.trans (List.getElem?_eq_getElem hlast), rfl⟩⟩
  · exact ⟨_, rfl, fun _ => rfl, by omega⟩

/-- R161 in R_RECV with room: a store at `rx_cnt`, and the close of the window that it fills. -/
theorem Des.receive_window {cfg : Config} {r : Des} {b : List Byte} {acc : Byte} (c : Common) (h : r.Window b)
    (x : Byte) (hroom : b.length < cfg.rxMax) (hacc : r.absorbPrevious cfg = .ok acc) :
    r.receive cfg c x = if b.length + 1 = cfg.rxMax then
      Des.close cfg c (b.length + 1) { r with
        rxb := r.rxb.store r.rxCnt.toNat x, rxCk := acc, rxCnt := r.rxCnt + 1, rxFull := true }
      else .ok { r with rxb := r.rxb.store r.rxCnt.toNat x, rxCk := acc, rxCnt := r.rxCnt + 1 } := by
  have hroom' : r.storeAddr < cfg.rxMax := h.1.symm.trans_lt hroom
  have hcnt : (r.rxCnt + 1).toNat = b.length + 1 := by rw [h.1]; exact rxCnt_succ (h.1 ▸ hroom)
  simp only [Des.receive, Des.storeByte, hacc, Memory.storeIn_ok x hroom', hcnt]
  rfl

/-! ### Wire bytes with no open window -/

/-- R161, R103: FEED outside R_RECV drops every byte. -/
theorem State.feed_closed {cfg : Config} (bs : List Byte) : ∀ {s : State}, s.des.rxState ≠ .recv →
    s.feed cfg bs = .ok { s with lineIn := s.lineIn ++ bs.map fun x => { byte := x, stored := false } } := by
  induction bs with
  | nil => intro s _; simp [State.feed]
  | cons x bs ih =>
    intro s h
    rw [State.feed, State.rxByte_closed h]
    exact (ih (s := s.recordIn x false) h).trans (by simp [State.recordIn])

/-! ### What the steps of DES leave unchanged -/

/-- R160 to R162, R195: the next states of the steps of DES. `exec_desAnswer` ties it to `exec`. -/
inductive DesAnswer (s : State) : Instr → State → Prop
  | armed : DesAnswer s .rxarm { s with des := s.des.arm Config.device, rdata := 0x00 }
  /-- RXEND, whether it closes a window or is ignored. -/
  | ended (r : Des) (hr : r = { s.des with
      rxState := r.rxState, lenOk := r.lenOk, ckOk := r.ckOk, rxRes := r.rxRes, rxCause := r.rxCause }) :
      DesAnswer s .rxend { s with des := r, rdata := 0x00 }
  /-- RXBYTE, whether the byte is stored or dropped. -/
  | delivered (x : Byte) (r : Des) (l : List Delivery) (hsel : r.recSel = s.des.recSel)
      (hcell : ∀ a, a ≠ s.des.storeAddr → r.rxb.cell a = s.des.rxb.cell a) :
      DesAnswer s (.rxbyte x) { s with des := r, lineIn := l }
  | selected (d : Byte) : DesAnswer s (.recsel d) { s with des := { s.des with recSel := d }, rdata := 0x00 }

theorem DesAnswer.rxEnd {cfg : Config} {s t : State} (h : s.rxEnd cfg = .ok t) : DesAnswer s .rxend t := by
  rcases State.rxEnd_next h with ⟨-, rfl⟩ | ⟨-, r, hclose, rfl⟩
  · exact .ended s.des rfl
  · have hframe := Des.close_frame hclose
    rw [← (Des.close_next hclose).1] at hframe
    exact .ended r hframe

theorem DesAnswer.rxByte {cfg : Config} {s t : State} {x : Byte} (h : s.rxByte cfg x = .ok t) :
    DesAnswer s (.rxbyte x) t := by
  rcases State.rxByte_next h with ⟨-, rfl⟩ | ⟨-, r, hrec, rfl⟩
  · exact .delivered x s.des _ rfl fun _ _ => rfl
  · obtain ⟨-, hrxb, -, hsel, -⟩ := Des.receive_next hrec
    exact .delivered x r _ hsel fun a ha => by rw [hrxb, Memory.cell_store_ne _ _ ha]

/-- Every next state of a step of DES is one of its answers. -/
theorem exec_desAnswer {s t : State} {i : Instr} (h : exec i s = .next t)
    (hi : i = .rxarm ∨ i = .rxend ∨ (∃ b, i = .rxbyte b) ∨ ∃ d, i = .recsel d) : DesAnswer s i t := by
  rcases hi with rfl | rfl | ⟨x, rfl⟩ | ⟨d, rfl⟩
  · exact Host.Outcome.next.inj h ▸ .armed
  · exact .rxEnd (orFault_eq_next.mp h)
  · exact .rxByte (orFault_eq_next.mp h)
  · exact Host.Outcome.next.inj h ▸ .selected d

section
variable {s t : State} {i : Instr} (h : DesAnswer s i t)
include h

/-- R168: they write DES, `rdata` and the inbound history only. -/
theorem DesAnswer.frame : t = { s with des := t.des, lineIn := t.lineIn, rdata := t.rdata } := by
  cases h <;> rfl

theorem DesAnswer.lineIn (hi : ∀ x, i ≠ .rxbyte x) : t.lineIn = s.lineIn := by
  cases h with
  | delivered x => exact absurd rfl (hi x)
  | armed | ended | selected => rfl

/-- Log 8. -/
theorem DesAnswer.rdata (hi : ∃ x, i = .rxbyte x) : t.rdata = s.rdata := by
  obtain ⟨x, rfl⟩ := hi
  cases h
  rfl

theorem DesAnswer.recSel (harm : i ≠ .rxarm) (hsel : ∀ d, i ≠ .recsel d) : t.des.recSel = s.des.recSel := by
  cases h with
  | armed => exact absurd rfl harm
  | selected d => exact absurd rfl (hsel d)
  | ended r hr => rw [hr]
  | delivered x r l hkept => exact hkept

theorem DesAnswer.counters (hi : i = .rxend ∨ ∃ d, i = .recsel d) :
    t.des.rxCnt = s.des.rxCnt ∧ t.des.rxCk = s.des.rxCk ∧ t.des.rxFull = s.des.rxFull := by
  rcases hi with rfl | ⟨d, rfl⟩ <;> cases h
  case ended r hr => exact ⟨by rw [hr], by rw [hr], by rw [hr]⟩
  case selected => exact ⟨rfl, rfl, rfl⟩

theorem DesAnswer.des_recsel (hi : ∃ d, i = .recsel d) : t.des = { s.des with recSel := t.des.recSel } := by
  obtain ⟨d, rfl⟩ := hi
  cases h
  rfl

/-- R160, R161: RXBYTE stores at `rx_cnt`, and no other step of DES at all. -/
theorem DesAnswer.rxb_cell {a : Nat} (ha : (∀ x, i ≠ .rxbyte x) ∨ a ≠ s.des.storeAddr) :
    t.des.rxb.cell a = s.des.rxb.cell a := by
  cases h with
  | armed | selected => rfl
  | ended r hr => rw [hr]
  | delivered x r l hkept hcell => exact hcell a (ha.resolve_left fun hi => hi x rfl)

end

/-! ### The bytes delivered in a window -/

/-- R169: of the common registers the report reads CTRL only. -/
theorem Des.closed_congr {c₁ c₂ : Common} (h : c₁.ctrl = c₂.ctrl) (cfg : Config) (b : List Byte) (r : Des) :
    r.closed cfg c₁ b = r.closed cfg c₂ b := by
  have hreport : c₁.report cfg b = c₂.report cfg b := by
    cases c₁
    cases c₂
    obtain rfl := h
    rfl
  simp only [Des.closed, hreport]

/-- R161, R163, R169: `u` is `s`, whose window is open, after the bytes `D` in all have been delivered: the window
is the first RX_MAX of them; below RX_MAX DES has changed in the window and `rec_sel` only, and from RX_MAX on it
is as the close of that window leaves it. -/
structure State.Delivered (cfg : Config) (s : State) (D : List Byte) (u : State) : Prop where
  recv   : s.des.rxState = .recv
  ctrl   : u.common.ctrl = s.common.ctrl
  window : u.des.Window (D.take cfg.rxMax)
  acc    : u.des.rxCk = LevelF.ckFold cfg (LevelF.region (D.take cfg.rxMax))
  opened : D.length < cfg.rxMax → u.des = { s.des with
    rxb := u.des.rxb, rxCk := u.des.rxCk, rxCnt := u.des.rxCnt, recSel := u.des.recSel }
  filled : cfg.rxMax ≤ D.length → u.des.rxFull = true ∧ u.des.closed cfg s.common (D.take cfg.rxMax) = u.des

/-- An open window that holds `b` counts as `b` delivered. -/
theorem State.Delivered.start {cfg : Config} {s : State} {b : List Byte} (hr : s.des.rxState = .recv)
    (hw : s.des.Window b) (hck : s.des.rxCk = LevelF.ckFold cfg (LevelF.region b)) (hroom : b.length < cfg.rxMax) :
    s.Delivered cfg b s where
  recv := hr
  ctrl := rfl
  window := by rwa [List.take_of_length_le hroom.le]
  acc := by rwa [List.take_of_length_le hroom.le]
  opened := fun _ => rfl
  filled := fun hfull => absurd hroom (Nat.not_lt.mpr hfull)

/-- R160. -/
theorem State.Delivered.arm (cfg : Config) (s : State) :
    State.Delivered cfg { s with des := s.des.arm cfg, rdata := 0x00 } []
      { s with des := s.des.arm cfg, rdata := 0x00 } :=
  .start rfl ⟨rfl, Memory.holds_nil _⟩ rfl (Nat.lt_of_lt_of_le (by simp) (le_rxMax cfg))

section
variable {cfg : Config} {s u : State} {D : List Byte} (h : s.Delivered cfg D u)
include h

theorem State.Delivered.isOpen (hroom : D.length < cfg.rxMax) : u.des.rxState = .recv := by
  rw [h.opened hroom]
  exact h.recv

theorem State.Delivered.isClosed (hfull : cfg.rxMax ≤ D.length) : u.des.rxState = .done := by
  rw [← (h.filled hfull).2]
  rfl

/-- R161: one more byte, stored while there is room. -/
theorem State.Delivered.rxByte (x : Byte) : ∃ v, u.rxByte cfg x = .ok v ∧ s.Delivered cfg (D ++ [x]) v ∧
    v.lineIn = u.lineIn ++ [{ byte := x, stored := decide (D.length < cfg.rxMax) }] := by
  have hlen : (D ++ [x]).length = D.length + 1 := by simp
  by_cases hroom : D.length < cfg.rxMax
  · have hD : D.take cfg.rxMax = D := List.take_of_length_le hroom.le
    have hDx : (D ++ [x]).take cfg.rxMax = D ++ [x] := List.take_of_length_le (by omega)
    have hw : u.des.Window D := hD ▸ h.window
    have hws := hw.stored x hroom
    have hrec := Des.receive_spec u.common hw x hroom (hD ▸ h.acc)
    refine ⟨_, State.rxByte_open (h.isOpen hroom) hrec, ?_, by simp [hroom]⟩
    split
    · rename_i hfills
      rw [Des.closed_congr h.ctrl]
      exact { recv := h.recv, ctrl := h.ctrl, window := hDx.symm ▸ hws, acc := hDx.symm ▸ rfl
              opened := by omega, filled := fun _ => ⟨rfl, hDx.symm ▸ rfl⟩ }
    · exact { recv := h.recv, ctrl := h.ctrl, window := hDx.symm ▸ hws, acc := hDx.symm ▸ rfl
              opened := fun _ => by rw [State.recordIn_des, Des.stored, h.opened hroom]
              filled := by omega }
  · have hfull : cfg.rxMax ≤ D.length := Nat.not_lt.mp hroom
    have hDx : (D ++ [x]).take cfg.rxMax = D.take cfg.rxMax := List.take_append_of_le_length hfull
    refine ⟨_, State.rxByte_closed (by simp [h.isClosed hfull]) cfg x, ?_, by simp [hroom]⟩
    exact { recv := h.recv, ctrl := h.ctrl, window := hDx ▸ h.window, acc := hDx ▸ h.acc
            opened := by omega, filled := fun _ => hDx ▸ h.filled hfull }

/-- R162: RXEND leaves DES as the close of the window leaves it, whether it closes it now or it closed itself. -/
theorem State.Delivered.rxEnd : ∃ t, u.rxEnd cfg = .ok t ∧ t.common = u.common ∧
    t.des.Window (D.take cfg.rxMax) ∧ t.des.closed cfg s.common (D.take cfg.rxMax) = t.des := by
  by_cases hroom : D.length < cfg.rxMax
  · have hclose := Des.close_spec u.common h.window h.acc
    rw [h.window.1, Des.closed_congr h.ctrl] at hclose
    exact ⟨_, State.rxEnd_open (h.isOpen hroom) hclose, rfl, h.window, rfl⟩
  · have hfull : cfg.rxMax ≤ D.length := Nat.not_lt.mp hroom
    exact ⟨_, State.rxEnd_closed (by simp [h.isClosed hfull]) cfg, rfl, h.window, (h.filled hfull).2⟩

end

/-- R161, R45: what the inbound history records of `bs` when `room` bytes of RXB are free. -/
def deliveries (room : Nat) (bs : List Byte) : List Delivery :=
  (bs.take room).map (fun x => { byte := x, stored := true }) ++
    (bs.drop room).map (fun x => { byte := x, stored := false })

theorem deliveries_cons (room : Nat) (x : Byte) (bs : List Byte) :
    deliveries room (x :: bs) = { byte := x, stored := decide (0 < room) } :: deliveries (room - 1) bs := by
  cases room <;> simp [deliveries]

/-- R103 FEED: one byte after another. -/
theorem State.Delivered.feed {cfg : Config} {s : State} (bs : List Byte) : ∀ {u : State} {D : List Byte},
    s.Delivered cfg D u → ∃ t, u.feed cfg bs = .ok t ∧ s.Delivered cfg (D ++ bs) t ∧
      t.lineIn = u.lineIn ++ deliveries (cfg.rxMax - D.length) bs := by
  induction bs with
  | nil => exact fun {u D} h => ⟨u, rfl, by simpa using h, by simp [deliveries]⟩
  | cons x bs ih =>
    intro u D h
    obtain ⟨v, hv, hx, hlog⟩ := h.rxByte x
    obtain ⟨t, ht, hbs, hlogs⟩ := ih hx
    refine ⟨t, by simp only [State.feed, hv, ht], by simpa using hbs, ?_⟩
    have hroom : cfg.rxMax - (D ++ [x]).length = cfg.rxMax - D.length - 1 := by simp; omega
    rw [hlogs, hlog, hroom, deliveries_cons]
    simp

/-! ### From RXARM to RXEND -/

theorem besideWindow_of_actsOnWindow {i : Instr} (h : actsOnWindow i = true) : besideWindow i = false := by
  unfold actsOnWindow at h
  split at h
  · rfl
  · rfl
  · rfl
  · rfl
  · cases h

/-- R169: the steps that may be interleaved with an open window leave DES but for `rec_sel`, and CTRL. -/
theorem Effect.besideWindow {s t : State} {i : Instr} (h : Effect s i t) (hi : Machine.besideWindow i = true) :
    (∃ d, t.des = { s.des with recSel := d }) ∧ t.common.ctrl = s.common.ctrl := by
  cases h with
  | answer c v _ hc => exact ⟨⟨_, rfl⟩, hc⟩
  | load | emit => exact ⟨⟨_, rfl⟩, rfl⟩
  | select d => exact ⟨⟨d, rfl⟩, rfl⟩
  | setCtrl | arm | frame => cases hi
  | window r l v hact => simp [besideWindow_of_actsOnWindow hact] at hi
  | reset v hr => rcases hr with rfl | rfl <;> cases hi

theorem State.Delivered.beside {cfg : Config} {s u v : State} {D : List Byte} (h : s.Delivered cfg D u)
    {d : Byte} (hdes : v.des = { u.des with recSel := d }) (hctrl : v.common.ctrl = u.common.ctrl) :
    s.Delivered cfg D v where
  recv := h.recv
  ctrl := hctrl.trans h.ctrl
  window := by rw [hdes]; exact h.window
  acc := by rw [hdes]; exact h.acc
  opened := fun hroom => by rw [hdes, h.opened hroom]
  filled := fun hfull => by
    obtain ⟨hf, hclosed⟩ := h.filled hfull
    rw [hdes]
    exact ⟨hf, congrArg (fun r : Des => { r with recSel := d }) hclosed⟩

theorem eq_rxbyte_of_deliveredByte {i : Instr} {x : Byte} (h : deliveredByte i = some x) : i = .rxbyte x := by
  unfold deliveredByte at h
  split at h
  · rw [Option.some.inj h]
  · cases h

theorem deliveredBytes_cons (i : Instr) (is : List Instr) :
    deliveredBytes (i :: is) = (deliveredByte i).toList ++ deliveredBytes is := by
  cases h : deliveredByte i <;> simp [deliveredBytes, h]

theorem execAll_cons_next {i : Instr} {is : List Instr} {s t : State} (h : execAll (i :: is) s = .next t) :
    ∃ u, exec i s = .next u ∧ execAll is u = .next t := by
  rw [execAll] at h
  split at h
  · exact ⟨_, ‹_›, h⟩
  · cases h
  · cases h

theorem execAll_append_next {is js : List Instr} : ∀ {s t : State}, execAll (is ++ js) s = .next t →
    ∃ u, execAll is s = .next u ∧ execAll js u = .next t := by
  induction is with
  | nil => exact fun {s t} h => ⟨s, rfl, h⟩
  | cons i is ih =>
    intro s t h
    obtain ⟨v, hv, h⟩ := execAll_cons_next h
    obtain ⟨u, hu, ht⟩ := ih h
    exact ⟨u, (execAll_cons hv).trans hu, ht⟩

/-- One of the steps of R169: an RXBYTE, or a step beside the window. -/
theorem State.Delivered.exec {s u v : State} {D : List Byte} {i : Instr} (h : s.Delivered Config.device D u)
    (hi : besideWindow i = true ∨ (deliveredByte i).isSome = true) (hv : Machine.exec i u = .next v) :
    s.Delivered Config.device (D ++ (deliveredByte i).toList) v := by
  cases hx : deliveredByte i with
  | none =>
    obtain ⟨⟨d, hdes⟩, hctrl⟩ := (exec_effect hv).besideWindow (hi.resolve_right (by simp [hx]))
    simpa using h.beside hdes hctrl
  | some x =>
    obtain rfl := eq_rxbyte_of_deliveredByte hx
    obtain ⟨v', hv', hnext, -⟩ := h.rxByte x
    obtain rfl := Host.Outcome.next.inj ((orFault_eq_next.mpr hv').symm.trans hv)
    exact hnext

/-- R169: the bytes of a window, whatever is interleaved. -/
theorem State.Delivered.execAll {s : State} (is : List Instr) : ∀ {u v : State} {D : List Byte},
    s.Delivered Config.device D u →
    (∀ i ∈ is, besideWindow i = true ∨ (deliveredByte i).isSome = true) → Machine.execAll is u = .next v →
    s.Delivered Config.device (D ++ deliveredBytes is) v := by
  induction is with
  | nil =>
    intro u v D h _ hv
    obtain rfl := Host.Outcome.next.inj hv
    simpa [deliveredBytes] using h
  | cons i is ih =>
    intro u v D h hi hv
    obtain ⟨hi, his⟩ := List.forall_mem_cons.mp hi
    obtain ⟨w, hw, hv⟩ := execAll_cons_next hv
    rw [deliveredBytes_cons, ← List.append_assoc]
    exact ih (h.exec hi hw) his hv

/-! ### Reading the result -/

theorem Des.resultValid_iff {r : Des} : r.resultValid = true ↔ r.rxState = .done ∧ r.rxRes = .ok := by
  simp [Des.resultValid]

/-- R164 to R166: a read with no valid result raises SeqError. -/
theorem State.withResult_refused {s : State} (h : ¬(s.des.rxState = .done ∧ s.des.rxRes = .ok)) (k : Result) :
    s.withResult k = .next (s.raise .seqError) :=
  State.withResult_invalid (Bool.eq_false_iff.mpr fun hv => h (Des.resultValid_iff.mp hv)) k

theorem natByte_toNat {n : Nat} (h : n ≤ 255) : (natByte n).toNat = n :=
  (BitVec.toNat_ofNat _ _).trans (Nat.mod_eq_of_lt (Nat.lt_succ_of_le h))

/-- R164 to R167: the reads of a valid result return what `Decode` gives. -/
theorem reads_of_decode {s : State} {b P : List Byte} {c : Byte} (hv : s.des.resultValid = true)
    (hw : s.des.Window b) (hmax : b.length ≤ 260) (hdec : LevelF.decode b = .ok (c, P)) :
    exec .rdcmd s = .next { s with rdata := c } ∧
      (∃ v : Byte, v.toNat = P.length ∧ exec .rdplen s = .next { s with rdata := v }) ∧
      ∀ d : Byte, d.toNat < P.length →
        ∃ v, P[d.toNat]? = some v ∧ exec (.rdpay d) s = .next { s with rdata := v } := by
  obtain ⟨hlen, h2, hP⟩ := LevelF.decode_eq_ok.mp hdec
  have hPlen : P.length = b.length - minFrame := by
    rw [← hP, LevelF.slice_length (Nat.sub_le _ _), Nat.sub_sub]
    rfl
  refine ⟨exec_rdcmd_window hv hw h2, ⟨_, ?_, exec_rdplen_window hv hw⟩, fun d hd => ?_⟩
  · rw [hPlen]
    exact natByte_toNat (by simp only [minFrame]; omega)
  · have hbyte : b[4 + d.toNat]? = P[d.toNat]? := by
      rw [← hP]
      exact (LevelF.slice_getElem? b (by simp only [minFrame, hdrLen] at *; omega)).symm
    have hget := List.getElem?_eq_getElem hd
    exact ⟨_, hget, exec_rdpay_window hv hw (hPlen ▸ hd) (hbyte.trans hget)⟩

end Sys2Proof.Machine

namespace Sys2Proof.Proofs
open Sys2Proof.Machine

/-- Settles O31: the accumulator by `Des.absorbPrevious_window`, the store and the close by `Des.receive_window`. -/
theorem rxbyteStoresInOpenWindow : Obligations.RxbyteStoresInOpenWindow := by
  intro s x b
  refine ⟨fun hn => congrArg orFault (State.rxByte_closed hn _ x), fun hr hw hroom => ?_⟩
  obtain ⟨acc, hacc, hkept, habsorb⟩ := Des.absorbPrevious_window hw Config.device
  have hrec := Des.receive_window s.common hw x hroom hacc
  have hws : Des.Window { s.des with
      rxb := s.des.rxb.store s.des.rxCnt.toNat x, rxCk := acc, rxCnt := s.des.rxCnt + 1 } (b ++ [x]) :=
    hw.stored x hroom
  refine ⟨acc, _, rfl, hws, hkept, habsorb, fun hmore => ?_, fun hfills => ?_⟩
  · rw [if_neg hmore] at hrec
    exact congrArg orFault (State.rxByte_open hr hrec)
  · have hwf : Des.Window { s.des with
        rxb := s.des.rxb.store s.des.rxCnt.toNat x, rxCk := acc, rxCnt := s.des.rxCnt + 1
        rxFull := true } (b ++ [x]) := hws
    obtain ⟨r', hclose⟩ := hwf.close_completes Config.device s.common
    rw [List.length_append, List.length_singleton] at hclose
    rw [if_pos hfills, hclose] at hrec
    exact ⟨r', hclose, congrArg orFault (State.rxByte_open hr hrec)⟩

/-- Settles O33: short or long, and the flags of a window whose accumulator I5 describes by `Des.close_spec`. -/
theorem closeWindowDecides : Obligations.CloseWindowDecides := by
  intro r c b hw
  obtain ⟨r', hclose⟩ := hw.close_completes Config.device c
  have hframe := Des.close_frame hclose
  have hdone := (Des.close_next hclose).1
  refine ⟨r', hclose, hframe, fun hshort => ?_, fun hlong => ?_, fun hck => ?_⟩
  · rw [Des.close_short _ _ _ hshort] at hclose
    obtain rfl := Except.ok.inj hclose
    exact ⟨rfl, rfl, rfl, rfl⟩
  · rw [Des.close_long c hw hlong] at hclose
    obtain rfl := Except.ok.inj hclose
    refine ⟨?_, by simp [Des.decided], fun hlenv hl => ?_, fun hl hckv hk => ?_, fun hl hk => ?_⟩
    · simp [Des.decided, LevelF.lengthOk, minFrame, hlong]
    · exact Prod.mk.inj (c.verdict_length hlenv hl)
    · exact Prod.mk.inj (c.verdict_checksum hl hckv hk)
    · exact Prod.mk.inj (c.verdict_ok hl hk)
  · rw [Des.close_spec c hw hck] at hclose
    obtain rfl := Except.ok.inj hclose
    exact ⟨rfl, rfl⟩

/-- Settles O37: `State.Delivered` holds from RXARM to RXEND, which leaves the report of the window. -/
theorem deserializerReportsDecode : Obligations.DeserializerReportsDecode := by
  rintro s t is B - his rfl ht
  obtain ⟨a, ha, ht⟩ := execAll_cons_next ht
  obtain rfl := Host.Outcome.next.inj ha
  obtain ⟨u, hu, ht⟩ := execAll_append_next ht
  obtain ⟨t', hend, ht⟩ := execAll_cons_next ht
  obtain rfl := Host.Outcome.next.inj ht
  have hdel := (State.Delivered.arm Config.device s).execAll is his hu
  obtain ⟨v, hv, hcommon, hw, hclosed⟩ := hdel.rxEnd
  obtain rfl := Host.Outcome.next.inj ((orFault_eq_next.mpr hv).symm.trans hend)
  rw [List.nil_append] at hw hclosed
  generalize hB : (deliveredBytes is).take Config.device.rxMax = B at hw hclosed
  have hmax : B.length ≤ 260 := by
    rw [← hB]
    exact (List.length_take_le _ _).trans (rxMax_le _)
  have hdone : v.des.rxState = .done := by rw [← hclosed]; rfl
  have hreport : (v.des.rxRes, v.des.rxCause) = s.common.report Config.device B := by rw [← hclosed]; rfl
  refine ⟨hdone, hw, by rw [← hclosed]; rfl, by rw [← hclosed]; rfl, by rw [hcommon]; exact hdel.ctrl,
    fun hdec => ?_, fun c P hdec => ?_⟩
  · exact Prod.mk.inj (hreport.trans (s.common.report_undecoded hdec))
  · rw [s.common.report_decoded hdec] at hreport
    refine ⟨fun hlenv hl => ?_, fun hl hckv hk => ?_, fun hl hk => ?_⟩
    · exact Prod.mk.inj (hreport.trans (s.common.verdict_length hlenv hl))
    · exact Prod.mk.inj (hreport.trans (s.common.verdict_checksum hl hckv hk))
    · obtain ⟨hok, hnone⟩ := Prod.mk.inj (hreport.trans (s.common.verdict_ok hl hk))
      exact ⟨hok, hnone, reads_of_decode (Des.resultValid_iff.mpr ⟨hdone, hok⟩) hw hmax hdec⟩

/-- Settles O44, from the layout of the frame. -/
theorem decodeUndoesEncode : Obligations.DecodeUndoesEncode := by
  intro cfg c p F hF
  obtain ⟨hp, rfl⟩ := LevelF.encode_eq_some.mp hF
  have hlen : minFrame ≤ (LevelF.commandFrame cfg c p).length := by simp [minFrame]
  exact ⟨LevelF.decode_eq_ok.mpr ⟨hlen, rfl, LevelF.commandFrame_payload cfg c p⟩,
    LevelF.checksumOk_commandFrame cfg c p, LevelF.lengthOk_commandFrame cfg c hp⟩

/-- Settles O49: FEED outside R_RECV. -/
theorem wireBytesDroppedOutsideWindow : Obligations.WireBytesDroppedOutsideWindow := fun _ hn =>
  ⟨fun _ _ _ _ _ _ => congrArg orFault (State.feed_closed _ hn),
    fun _ _ _ => congrArg orFault (State.feed_closed _ hn)⟩

/-- Settles O50: FEED in R_RECV, from the bytes the window holds. -/
theorem wireBytesEnterWindow : Obligations.WireBytesEnterWindow := by
  rintro s b bs W k i hinv hr hw hi rfl rfl
  have hexec : exec i s = orFault (s.feed Config.device bs) := by
    rcases hi with ⟨sync, version, c, len, pl, ck, rfl, rfl⟩ | ⟨la, s0, s1, rfl, rfl⟩ <;> rfl
  have hck : s.des.rxCk = LevelF.ckFold Config.device (LevelF.region b) := by
    obtain ⟨b', hw', hck, -⟩ := hinv.des.window
    obtain rfl := hw.2.unique hw'.2 (hw.1.trans hw'.1.symm)
    exact hck (by simp [hr])
  have hroom : b.length < Config.device.rxMax := hw.1 ▸ hinv.des.recvCnt hr
  obtain ⟨t, ht, hdel, hlog⟩ := (State.Delivered.start hr hw hck hroom).feed bs
  obtain ⟨hframe, hsel, -, -⟩ := State.feed_next bs ht
  refine ⟨t, hexec.trans (orFault_eq_next.mpr ht), ?_, hdel.window, hdel.acc, hsel, fun hmore => ?_,
    fun hfull => ?_⟩
  · rw [hlog, deliveries, ← List.append_assoc] at hframe
    exact hframe
  · have hopen := hdel.opened (by rwa [List.length_append])
    rw [hsel] at hopen
    exact hopen
  · rw [← List.length_append] at hfull
    obtain ⟨hf, hclosed⟩ := hdel.filled hfull
    exact ⟨hdel.isClosed hfull, hf, by rw [← hclosed]; rfl, by rw [← hclosed]; rfl⟩

/-- Settles O54, answer by answer. -/
theorem frameOfReceiveSteps : Obligations.FrameOfReceiveSteps := by
  intro s t i h hi
  have ha : DesAnswer s i t := exec_desAnswer h hi
  have e := ha.frame
  have hser : t.ser = s.ser := by rw [e]
  exact ⟨hser, by rw [e], by rw [e], by rw [e], ha.lineIn, ha.rdata, ha.recSel, ha.counters, ha.des_recsel,
    fun _ _ hne => ha.rxb_cell (.inr hne), fun _ hne => ha.rxb_cell (.inl hne), fun _ => by rw [hser]⟩

/-- Settles O30: RXARM has no case. -/
theorem rxarmOpensWindow : Obligations.RxarmOpensWindow := fun _ =>
  ⟨decode_encode Config.device (i := .rxarm) rfl, rfl⟩

/-- Settles O32: ignored, or the close of the window, which is short when the window is empty. -/
theorem rxendClosesOpenWindow : Obligations.RxendClosesOpenWindow := by
  intro s b
  refine ⟨decode_encode Config.device (i := .rxend) rfl, fun hn => congrArg orFault (State.rxEnd_closed hn _),
    fun hr hw => ?_, fun hr hzero => ?_⟩
  · obtain ⟨r', hclose⟩ := hw.close_completes Config.device s.common
    exact ⟨r', hclose, congrArg orFault (State.rxEnd_open hr (hw.1 ▸ hclose))⟩
  · have hclose := Des.close_short Config.device s.common (n := s.des.rxCnt.toNat) s.des
      (by rw [hzero]; decide)
    refine ⟨_, congrArg orFault (State.rxEnd_open hr hclose), rfl, rfl, ?_⟩
    rw [(Des.causeView_bits _).2.1]
    simp [hzero]

/-- Settles O34: the guard, then the byte the window holds at address 2. -/
theorem rdcmdReturnsCommandCode : Obligations.RdcmdReturnsCommandCode := by
  intro s b
  refine ⟨decode_encode Config.device (i := .rdcmd) rfl, fun hn => State.withResult_refused hn _,
    fun hdone hok hw hlen => ?_⟩
  have h2 : b[2]? = some _ := List.getElem?_eq_getElem (Nat.lt_of_lt_of_le (by decide) hlen)
  exact ⟨_, h2, exec_rdcmd_window (Des.resultValid_iff.mpr ⟨hdone, hok⟩) hw h2⟩

/-- Settles O35: the difference fits a byte. -/
theorem rdplenReturnsPayloadLength : Obligations.RdplenReturnsPayloadLength := by
  intro s
  refine ⟨decode_encode Config.device (i := .rdplen) rfl, fun hn => State.withResult_refused hn _,
    fun hdone hok _ hmax => ⟨_, natByte_toNat (Nat.sub_le_sub_right hmax 5), ?_⟩⟩
  exact State.withResult_valid (Des.resultValid_iff.mpr ⟨hdone, hok⟩) _

/-- Settles O36, guard by guard. -/
theorem rdpayReturnsPayloadByte : Obligations.RdpayReturnsPayloadByte := by
  intro s d b
  refine ⟨decode_dataWord (op := 0x9) (i := .rdpay d) rfl rfl, fun hn => State.withResult_refused hn _,
    fun hdone hok hd => ?_, fun hdone hok hd hw => ?_⟩
  · have hidx : s.des.payIndexOk d ≠ true := fun h => absurd (of_decide_eq_true h) (Nat.not_lt.mpr hd)
    exact (State.withResult_valid (Des.resultValid_iff.mpr ⟨hdone, hok⟩) _).trans (if_neg hidx)
  · have hlen := hw.1
    have hbyte : b[4 + d.toNat]? = some _ := List.getElem?_eq_getElem (by omega)
    exact ⟨_, hbyte, exec_rdpay_window (Des.resultValid_iff.mpr ⟨hdone, hok⟩) hw (hlen ▸ hd) hbyte⟩

end Sys2Proof.Proofs
end

section
/-! PROOFS. Discovery records (43_discovery_records.md): the records of a payload byte by byte, and what RECSEL,
RDREC and RDNREC do of any window. -/

namespace Sys2Proof.LevelF

/-! ### The records of a payload (R190) -/

theorem decodeDiscovery_length (P : List Byte) : (decodeDiscovery P).length = P.length / discStride := by
  rw [decodeDiscovery, List.length_map, List.length_range]

/-- R190: exactly the whole records of a payload are emitted, in wire order. -/
theorem decodeDiscovery_eq_some {P : List Byte} {r : Nat} {rec : DiscRecord} :
    (decodeDiscovery P)[r]? = some rec ↔ r < P.length / discStride ∧ discoveryRecord P r = rec := by
  rw [decodeDiscovery, List.getElem?_map, Option.map_eq_some_iff]
  simp only [List.getElem?_eq_some_iff, List.length_range, List.getElem_range, exists_prop]
  exact ⟨fun ⟨_, ⟨hr, rfl⟩, hrec⟩ => ⟨hr, hrec⟩, fun ⟨hr, hrec⟩ => ⟨r, ⟨hr, rfl⟩, hrec⟩⟩

/-- R192: the bytes of a whole record lie among the `n` bytes of its payload. -/
theorem recordOffset_lt {n r k : Nat} (hr : r < n / discStride) (hk : k < discStride) :
    discStride * r + k < n := by
  unfold discStride at *
  omega

theorem discoveryRecord_long_getElem? (P : List Byte) (r : Nat) {k : Nat} (hk : k < longLen) :
    (discoveryRecord P r).long[k]? = P[discStride * r + k]? :=
  slice_getElem? P (Nat.add_lt_add_left hk _)

theorem discoveryRecord_short_getElem? (P : List Byte) (r : Nat) {k : Nat} (hk : k < shortLen) :
    (discoveryRecord P r).short[k]? = P[discStride * r + longLen + k]? :=
  slice_getElem? P (Nat.add_lt_add_left hk _)

/-- The end of a whole record is at most the end of its payload. -/
theorem recordEnd_le {P : List Byte} {r : Nat} (hr : r < P.length / discStride) :
    discStride * r + longLen + shortLen ≤ P.length :=
  recordOffset_lt hr (k := longLen + 1) (by decide)

theorem discoveryRecord_long_length {P : List Byte} {r : Nat} (hr : r < P.length / discStride) :
    (discoveryRecord P r).long.length = longLen :=
  (slice_length (Nat.le_of_add_right_le (recordEnd_le hr))).trans (Nat.add_sub_cancel_left _ _)

theorem discoveryRecord_short_length {P : List Byte} {r : Nat} (hr : r < P.length / discStride) :
    (discoveryRecord P r).short.length = shortLen :=
  (slice_length (recordEnd_le hr)).trans (Nat.add_sub_cancel_left _ _)

/-- R193: two bytes fit the 16 bits of the numeric short address. -/
theorem shortNumeric_toNat (s0 s1 : Byte) : (shortNumeric s0 s1).toNat = s1.toNat * 256 + s0.toNat := by
  have h0 := s0.isLt
  have h1 := s1.isLt
  exact (BitVec.toNat_ofNat _ _).trans (Nat.mod_eq_of_lt (by omega))

/-! ### The payload of a window (R155) -/

section
variable {b P : List Byte} {c : Byte} (h : decode b = .ok (c, P))
include h

theorem decode_ok_length : P.length = b.length - minFrame := by
  obtain ⟨-, -, rfl⟩ := decode_eq_ok.mp h
  exact (slice_length (Nat.sub_le _ _)).trans (Nat.sub_sub _ _ _)

theorem decode_ok_getElem? {k : Nat} (hk : k < P.length) : P[k]? = b[hdrLen + k]? := by
  rw [decode_ok_length h] at hk
  obtain ⟨-, -, rfl⟩ := decode_eq_ok.mp h
  exact slice_getElem? b (by unfold minFrame hdrLen at *; omega)

end

end Sys2Proof.LevelF

namespace Sys2Proof.Machine

/-! ### Reads of the record view -/

theorem Des.recIndexOk_iff {r : Des} {d : Byte} :
    r.recIndexOk d = true ↔ r.recSel.toNat < r.nrec ∧ d.toNat < discStride := by
  simp [Des.recIndexOk]

/-- R44: the number of records of a window. -/
theorem Des.Window.nrec_eq {r : Des} {b : List Byte} (h : r.Window b) :
    r.nrec = (b.length - minFrame) / discStride := by rw [h.1]; rfl

/-- R197: a window of at most 260 bytes holds at most 25 records. -/
theorem Des.nrec_le {r : Des} (h : r.rxCnt.toNat ≤ maxFrame) : r.nrec ≤ 25 :=
  Nat.div_le_div_right (c := discStride) (Nat.sub_le_sub_right h minFrame)

section
variable {s : State} (hv : s.des.resultValid = true)
include hv

theorem exec_rdnrec_valid : exec .rdnrec s = .next (s.ret (natByte s.des.nrec)) := State.withResult_valid hv _

theorem exec_rdrec_badIndex {d : Byte} (hd : s.des.nrec ≤ s.des.recSel.toNat ∨ discStride ≤ d.toNat) :
    exec (.rdrec d) s = .next (s.raise .idxError) := by
  have hidx : s.des.recIndexOk d ≠ true := fun h => by
    obtain ⟨hsel, hoff⟩ := Des.recIndexOk_iff.mp h
    omega
  exact (State.withResult_valid hv _).trans (if_neg hidx)

variable {b : List Byte} (hw : s.des.Window b)
include hw

theorem exec_rdrec_window {d v : Byte} (hr : s.des.recSel.toNat < s.des.nrec) (hd : d.toNat < discStride)
    (hb : b[s.des.recAddr d]? = some v) : exec (.rdrec d) s = .next (s.ret v) :=
  calc s.withResult (s.withIndex (s.des.recIndexOk d) (s.readRxb (s.des.recAddr d)))
    _ = s.withIndex (s.des.recIndexOk d) (s.readRxb (s.des.recAddr d)) := State.withResult_valid hv _
    _ = s.readRxb (s.des.recAddr d) := if_pos (Des.recIndexOk_iff.mpr ⟨hr, hd⟩)
    _ = .next (s.ret v) := State.readRxb_of_getElem? hw hb

/-- R198: RDREC reads the selected record's bytes of the payload. -/
theorem exec_rdrec_payload {P : List Byte} {c d : Byte} (hdec : LevelF.decode b = .ok (c, P))
    (hr : s.des.recSel.toNat < P.length / discStride) (hd : d.toNat < discStride) :
    ∃ v, P[discStride * s.des.recSel.toNat + d.toNat]? = some v ∧ exec (.rdrec d) s = .next (s.ret v) := by
  have hoff := LevelF.recordOffset_lt hr hd
  have hget := List.getElem?_eq_getElem hoff
  have hplace : P[discStride * s.des.recSel.toNat + d.toNat]? = b[s.des.recAddr d]? := by
    rw [Des.recAddr, Nat.add_assoc, LevelF.decode_ok_getElem? hdec hoff]
  have hr' : s.des.recSel.toNat < s.des.nrec := by rwa [hw.nrec_eq, ← LevelF.decode_ok_length hdec]
  exact ⟨_, hget, exec_rdrec_window hv hw hr' hd (hplace.symm.trans hget)⟩

end

end Sys2Proof.Machine

namespace Sys2Proof.Proofs
open Sys2Proof.Machine

/-- Settles O40, guard by guard: the record's byte lies in the payload, so RDPAY reads it too. -/
theorem rdrecReturnsRecordByte : Obligations.RdrecReturnsRecordByte := by
  intro s d b
  refine ⟨decode_dataWord (op := 0xB) (i := .rdrec d) rfl rfl, fun hn => State.withResult_refused hn _,
    fun hdone hok => exec_rdrec_badIndex (Des.resultValid_iff.mpr ⟨hdone, hok⟩), fun hdone hok hr hd hw => ?_⟩
  have hv := Des.resultValid_iff.mpr ⟨hdone, hok⟩
  have hoff : 10 * s.des.recSel.toNat + d.toNat < b.length - 5 := hw.1 ▸ LevelF.recordOffset_lt hr hd
  have hbyte : b[4 + 10 * s.des.recSel.toNat + d.toNat]? = some _ := List.getElem?_eq_getElem (by omega)
  refine ⟨_, hbyte, by omega, exec_rdrec_window hv hw hr hd hbyte, fun hmax => ?_⟩
  have hidx : (natByte (10 * s.des.recSel.toNat + d.toNat)).toNat = 10 * s.des.recSel.toNat + d.toNat :=
    natByte_toNat (by omega)
  refine exec_rdpay_window hv hw (d := natByte _) (hidx.symm ▸ hoff) ?_
  rw [hidx, ← Nat.add_assoc, hbyte]

/-- Settles O42: every record lies in the payload, where `exec_rdrec_payload` reads it after RECSEL. -/
theorem recordViewIsDecodeDiscovery : Obligations.RecordViewIsDecodeDiscovery := by
  intro s B P c hdone hok hw hmax hdec
  have hv := Des.resultValid_iff.mpr ⟨hdone, hok⟩
  refine ⟨⟨_, ?_, exec_rdnrec_valid hv⟩, fun r rec hrec => ?_⟩
  · have hle : s.des.nrec ≤ 25 := Des.nrec_le (hw.1 ▸ hmax)
    rw [natByte_toNat (Nat.le_trans hle (by decide)), hw.nrec_eq, ← LevelF.decode_ok_length hdec,
      LevelF.decodeDiscovery_length]
  · obtain ⟨hr, rfl⟩ := LevelF.decodeDiscovery_eq_some.mp hrec
    have hread (k : Byte) (hk : k.toNat < discStride) :=
      exec_rdrec_payload (s := { s with des := { s.des with recSel := r }, rdata := 0x00 }) hv hw hdec hr hk
    refine ⟨_, rfl, fun k hk => ?_, fun k h8 hk => ?_⟩
    · rw [LevelF.discoveryRecord_long_getElem? P _ hk]
      exact hread k (Nat.lt_trans hk (by decide))
    · have hplace : discStride * r.toNat + longLen + (k.toNat - 8) = discStride * r.toNat + k.toNat := by
        rw [Nat.add_assoc, show longLen + (k.toNat - 8) = k.toNat from Nat.add_sub_of_le h8]
      rw [LevelF.discoveryRecord_short_getElem? P _ (Nat.sub_lt_left_of_lt_add h8 hk), hplace]
      exact hread k hk

/-- Settles O45: record `r` is the two slices of R190, and both end inside the payload. -/
theorem discoveryRecordsOfPayload : Obligations.DiscoveryRecordsOfPayload := fun P =>
  ⟨LevelF.decodeDiscovery_length P, fun r hr =>
    ⟨_, LevelF.decodeDiscovery_eq_some.mpr ⟨hr, rfl⟩,
      LevelF.discoveryRecord_long_length hr, fun _ => LevelF.discoveryRecord_long_getElem? P r,
      LevelF.discoveryRecord_short_length hr, fun _ => LevelF.discoveryRecord_short_getElem? P r⟩⟩

/-- Settles O39: RECSEL has no case. -/
theorem recselSelectsRecord : Obligations.RecselSelectsRecord := fun _ d =>
  ⟨decode_dataWord (op := 0xA) (i := .recsel d) rfl rfl, rfl⟩

/-- Settles O41: the guard, then a count that fits a byte. -/
theorem rdnrecReturnsRecordCount : Obligations.RdnrecReturnsRecordCount := by
  intro s
  refine ⟨decode_encode Config.device (i := .rdnrec) rfl, fun hn => State.withResult_refused hn _,
    fun hdone hok hmax => ?_⟩
  have hle : s.des.nrec ≤ 25 := Des.nrec_le hmax
  have hval : (natByte s.des.nrec).toNat = s.des.nrec := natByte_toNat (Nat.le_trans hle (by decide))
  exact ⟨_, hval, hval.trans_le hle, exec_rdnrec_valid (Des.resultValid_iff.mpr ⟨hdone, hok⟩)⟩

/-- Settles O46: the equation for all bytes, and the document's two examples by evaluation. -/
theorem shortNumericSwapsBytes : Obligations.ShortNumericSwapsBytes :=
  ⟨LevelF.shortNumeric_toNat, by decide, by decide⟩

end Sys2Proof.Proofs
end

section
/-! PROOFS. System ops (44_system_ops.md): the words and answers of NOP, WRREG and RDREG, what WRREG, SRST and
reset leave unchanged, and the step of a reserved word. -/

namespace Sys2Proof

/-! ### The words of WRREG and RDREG (R98) -/

/-- R96, R98: a word whose bits 15:12, 11:8 and 7:0 are `op`, `a` and `d` decodes to the instruction of those
fields. -/
theorem decode_fieldsWord {cfg : Config} {op : BitVec 4} {a : RegNo} {d : Byte} {i : Instr}
    (hi : i.wellFormed = true) (he : encode cfg i = .host (opWord op a d)) :
    decode cfg (.host (op.setWidth 16 <<< 12 ||| a.setWidth 16 <<< 8 ||| d.setWidth 16)) = .ok i := by
  rw [or_shift_eq_opWord, ← he]
  exact decode_encode cfg hi

/-- R96, R98: the same of an op that uses `a` only. -/
theorem decode_regWord {cfg : Config} {op : BitVec 4} {a : RegNo} {i : Instr} (hi : i.wellFormed = true)
    (he : encode cfg i = .host (opWord op a 0)) :
    decode cfg (.host (op.setWidth 16 <<< 12 ||| a.setWidth 16 <<< 8)) = .ok i := by
  simpa using decode_fieldsWord hi he

end Sys2Proof

namespace Sys2Proof.Machine

/-! ### What a read of a register answers -/

/-- R40: ERR as a number. -/
theorem State.errView_toNat (s : State) : s.errView.toNat = 8 * s.common.errIllop.toNat +
    4 * s.common.errIdx.toNat + 2 * s.common.errSeq.toNat + s.ser.txOvf.toNat := by
  have h : s.errView = ((((0#4).concat s.common.errIllop).concat s.common.errIdx).concat
    s.common.errSeq).concat s.ser.txOvf := rfl
  simp only [h, BitVec.toNat_concat, BitVec.toNat_ofNat]
  omega

/-- R42: RXCNT_L. -/
theorem Des.cntLow_toNat (r : Des) : r.cntLow.toNat = r.rxCnt.toNat % 256 := by simp [Des.cntLow]

/-- R42: RXCNT_H; the counter has 9 bits. -/
theorem Des.cntHigh_toNat (r : Des) : r.cntHigh.toNat = r.rxCnt.toNat / 256 := by
  have hlt : r.rxCnt.toNat < 512 := r.rxCnt.isLt
  simp only [Des.cntHigh, BitVec.toNat_setWidth, BitVec.extractLsb'_toNat, Nat.shiftRight_eq_div_pow]
  omega

/-- R43: the reserved register numbers have no view. -/
theorem State.regView_reserved (s : State) {a : RegNo} (ha : 9 ≤ a.toNat) : s.regView a = none := by
  unfold State.regView
  split
  case h_10 => rfl
  all_goals omega

theorem exec_rdreg_view {s : State} {a : RegNo} {v : Byte} (h : s.regView a = some v) :
    exec (.rdreg a) s = .next (s.ret v) := by
  show Host.Outcome.next (s.readReg a) = _
  rw [State.readReg, h]

theorem exec_rdreg_reserved {s : State} {a : RegNo} (h : s.regView a = none) :
    exec (.rdreg a) s = .next (s.raise .illegalOp) := by
  show Host.Outcome.next (s.readReg a) = _
  rw [State.readReg, h]

/-! ### Register writes, SRST and reset -/

/-- R211: write one to clear, bit by bit. -/
theorem State.clearErr_eq_ite (s : State) (d : Byte) : s.clearErr d = { s with
    common := { s.common with
      errSeq := if d.getLsbD 1 then false else s.common.errSeq
      errIdx := if d.getLsbD 2 then false else s.common.errIdx
      errIllop := if d.getLsbD 3 then false else s.common.errIllop } } := by
  have bit (b e : Bool) : (e && !b) = if b then false else e := by cases b <;> simp
  simp only [State.clearErr, bit]

/-- R211: WRREG writes the common registers and `rdata` only. -/
theorem State.writeReg_frame (s : State) (a : RegNo) (d : Byte) :
    s.writeReg a d = { s with common := (s.writeReg a d).common, rdata := 0x00 } := by
  rcases s.writeReg_cases a d with ⟨-, e⟩ | ⟨-, e⟩ | ⟨-, -, e⟩ <;> rw [e] <;> rfl

theorem State.writeReg_ctrl (s : State) {a : RegNo} (ha : a ≠ 0) (d : Byte) :
    (s.writeReg a d).common.ctrl = s.common.ctrl := by
  rcases s.writeReg_cases a d with ⟨rfl, -⟩ | ⟨-, e⟩ | ⟨-, -, e⟩
  · exact absurd rfl ha
  · rw [e]; rfl
  · rw [e]; rfl

theorem State.writeReg_errs (s : State) {a : RegNo} (ha : a ≠ 2) (d : Byte) :
    (s.writeReg a d).common.errSeq = s.common.errSeq ∧ (s.writeReg a d).common.errIdx = s.common.errIdx := by
  rcases s.writeReg_cases a d with ⟨-, e⟩ | ⟨rfl, -⟩ | ⟨-, -, e⟩
  · rw [e]; exact ⟨rfl, rfl⟩
  · exact absurd rfl ha
  · rw [e]; exact ⟨rfl, rfl⟩

/-- R213, R260: SRST and the reset event reset the registers; they differ in `rdata`. -/
theorem exec_resets {s t : State} {i : Instr} (hi : i = .srst ∨ i = .reset) (h : exec i s = .next t) :
    t = { s.resetRegisters with rdata := t.rdata } ∧ (i = .reset → t.rdata = s.rdata) := by
  rcases hi with rfl | rfl
  · obtain rfl := Host.Outcome.next.inj h
    exact ⟨rfl, nofun⟩
  · obtain rfl := Host.Outcome.next.inj h
    exact ⟨rfl, fun _ => rfl⟩

end Sys2Proof.Machine

namespace Sys2Proof.Proofs
open Sys2Proof.Machine

/-- Settles O10: a word that no row matches does not decode, and the step raises IllegalOp. -/
theorem reservedWordRaisesIllegalOp : Obligations.ReservedWordRaisesIllegalOp := by
  intro s w rest hs hw
  have hnone : decodeHost w = none := (no_match_iff_decodeHost_none w).mp hw
  have hd : decode Config.device (.host w) = .error (.reservedWord w) := by rw [decode, hnone]; rfl
  simp only [step, State.fetch_cons hs, hd]
  rfl

/-- Settles O55: WRREG writes the common registers only; SRST and reset write no cell and no history. -/
theorem frameOfSystemWrites : Obligations.FrameOfSystemWrites := by
  rintro s t i h (⟨a, d, rfl⟩ | hi)
  · obtain rfl : s.writeReg a d = t := Host.Outcome.next.inj h
    have e := s.writeReg_frame a d
    have hser : (s.writeReg a d).ser = s.ser := by rw [e]
    have hdes : (s.writeReg a d).des = s.des := by rw [e]
    refine ⟨by rw [e], by rw [e], by rw [e], fun _ => by rw [hser], fun _ => by rw [hdes], nofun,
      fun _ => ⟨hser, hdes⟩, ?_, ?_, ?_⟩
    · rintro ⟨a, d, ha, ⟨⟩⟩
      exact s.writeReg_ctrl ha d
    · rintro ⟨d, ⟨⟩⟩
      rfl
    · rintro ⟨a, d, ha, ⟨⟩⟩
      exact s.writeReg_errs ha d
  · obtain ⟨e, hrdata⟩ := exec_resets hi h
    have hno (a : RegNo) (d : Byte) : i ≠ .wrreg a d := by rcases hi with rfl | rfl <;> nofun
    exact ⟨by rw [e]; rfl, by rw [e]; rfl, by rw [e]; rfl, fun _ => by rw [e]; rfl, fun _ => by rw [e]; rfl,
      hrdata, fun ⟨a, d, hw⟩ => absurd hw (hno a d), fun ⟨a, d, _, hw⟩ => absurd hw (hno a d),
      fun ⟨d, hw⟩ => absurd hw (hno 0 d), fun ⟨a, d, _, hw⟩ => absurd hw (hno a d)⟩

/-- Settles O14: NOP has no case. -/
theorem nopReturnsZero : Obligations.NopReturnsZero := fun _ =>
  ⟨decode_encode Config.device (i := .nop) rfl, rfl⟩

/-- Settles O15: CTRL, ERR, or a number that refuses a write. -/
theorem wrregWritesCtrlAndClearsErr : Obligations.WrregWritesCtrlAndClearsErr := by
  intro s a d
  refine ⟨decode_fieldsWord (op := 0xD) (i := .wrreg a d) rfl rfl, ?_, ?_, fun h0 h2 => ?_⟩
  · rintro rfl
    rfl
  · rintro rfl
    exact congrArg (fun u : State => Host.Outcome.next (u.ret 0x00)) (s.clearErr_eq_ite d)
  · exact congrArg Host.Outcome.next (State.writeReg_readOnly h0 h2 s d)

/-- Settles O16: the view of each register number, and none for the reserved numbers. -/
theorem rdregReturnsRegister : Obligations.RdregReturnsRegister := fun s a =>
  ⟨decode_regWord (op := 0xE) (i := .rdreg a) rfl rfl,
    fun ha => exec_rdreg_view (ha ▸ rfl),
    fun ha => exec_rdreg_view (ha ▸ rfl),
    fun ha => ⟨_, s.errView_toNat, exec_rdreg_view (ha ▸ rfl)⟩,
    fun ha => exec_rdreg_view (ha ▸ rfl),
    fun ha => exec_rdreg_view (ha ▸ rfl),
    fun ha => exec_rdreg_view (ha ▸ rfl),
    fun ha => ⟨_, s.des.cntLow_toNat, exec_rdreg_view (ha ▸ rfl)⟩,
    fun ha => ⟨_, s.des.cntHigh_toNat, exec_rdreg_view (ha ▸ rfl)⟩,
    fun ha => exec_rdreg_view (ha ▸ rfl),
    fun ha => exec_rdreg_reserved (s.regView_reserved ha)⟩

end Sys2Proof.Proofs
end

section
/-! PROOFS. Exceptions (60_exceptions.md): a host op raises one error and does nothing else, or sets no error bit. -/

namespace Sys2Proof.Machine

/-! ### The error bits by kind -/

/-- R40: the sticky bit of an error. -/
def State.errBit (s : State) : ErrKind → Bool
  | .txOverflow => s.ser.txOvf
  | .seqError => s.common.errSeq
  | .idxError => s.common.errIdx
  | .illegalOp => s.common.errIllop

theorem State.raise_errBit (s : State) (e k : ErrKind) : (s.raise e).errBit k = (s.errBit k || e == k) := by
  cases k with
  | txOverflow => exact s.raise_txOvf e
  | seqError => exact s.raise_errSeq e
  | idxError => exact s.raise_errIdx e
  | illegalOp => exact s.raise_errIllop e

/-- Every error bit that is set in `t` was set in `s`. -/
def State.SetsNoError (s t : State) : Prop := ∀ k, t.errBit k = true → s.errBit k = true

theorem State.SetsNoError.of_unchanged {s t : State} (hovf : t.ser.txOvf = s.ser.txOvf)
    (hcommon : t.common = s.common) : s.SetsNoError t := by
  intro k
  cases k with
  | txOverflow => simp [State.errBit, hovf]
  | seqError | idxError | illegalOp => simp [State.errBit, hcommon]

/-- R235: `t` is a raise at `s`, or no error bit goes from 0 to 1. -/
def State.RaisesOrSetsNone (s t : State) : Prop := (∃ e, t = s.raise e) ∨ s.SetsNoError t

/-- R15: an error bit goes from 0 to 1 only by the raise of that error. -/
theorem State.RaisesOrSetsNone.eq_raise {s t : State} (h : s.RaisesOrSetsNone t) {k : ErrKind}
    (hs : s.errBit k = false) (ht : t.errBit k = true) : t = s.raise k := by
  rcases h with ⟨e, rfl⟩ | hnone
  · have hek : e = k := by simpa [s.raise_errBit, hs] using ht
    rw [hek]
  · simp [hnone k ht] at hs

/-! ### The host ops -/

/-- R164, R166, R196, R212. -/
theorem ReadAnswer.raisesOrSetsNone {s t : State} {i : Instr} (h : ReadAnswer s i t) : s.RaisesOrSetsNone t := by
  cases h with
  | reserved | noResult | badIndex => exact .inl ⟨_, rfl⟩
  | value v => exact .inr (.of_unchanged rfl rfl)

/-- R134 to R138. -/
theorem SerAnswer.raisesOrSetsNone {s t : State} {i : Instr} (h : SerAnswer s i t) : s.RaisesOrSetsNone t := by
  cases h with
  | refused | overflow => exact .inl ⟨_, rfl⟩
  | command | pushed | started => exact .inr (.of_unchanged rfl rfl)
  | sent =>
    obtain ⟨-, -, hovf, -⟩ := s.ser.advance_loaded
    exact .inr (.of_unchanged hovf rfl)
  | cleared =>
    refine .inr fun k hk => ?_
    cases k with
    | txOverflow => cases hk
    | seqError | idxError | illegalOp => exact hk

/-- R160 to R162, R195: the steps of DES write no error bit. -/
theorem DesAnswer.raisesOrSetsNone {s t : State} {i : Instr} (h : DesAnswer s i t) : s.RaisesOrSetsNone t := by
  rw [h.frame]
  exact .inr (.of_unchanged rfl rfl)

/-- R236: a write to ERR sets no bit of it. -/
theorem State.SetsNoError.clearErr (s : State) (d : Byte) : s.SetsNoError (s.clearErr d) := by
  intro k hk
  cases k with
  | txOverflow => exact hk
  | seqError | idxError | illegalOp => exact (Bool.and_eq_true_iff.mp hk).1

/-- R211. -/
theorem State.writeReg_raisesOrSetsNone (s : State) (a : RegNo) (d : Byte) :
    s.RaisesOrSetsNone (s.writeReg a d) := by
  rcases s.writeReg_cases a d with ⟨-, e⟩ | ⟨-, e⟩ | ⟨-, -, e⟩ <;> rw [e]
  · exact .inr fun k hk => by cases k <;> exact hk
  · exact .inr (.clearErr s d)
  · exact .inl ⟨_, rfl⟩

/-- R213, R261: after SRST every error bit is 0. -/
theorem State.SetsNoError.softReset (s : State) : s.SetsNoError (s.resetRegisters.ret 0x00) := by
  intro k hk
  cases k <;> cases hk

/-- R235: a host op raises one error and does nothing else, or sets no error bit. -/
theorem exec_raisesOrSetsNone {s t : State} {i : Instr} (hi : isHostOp i = true) (h : exec i s = .next t) :
    s.RaisesOrSetsNone t := by
  cases i with
  | nop | rdreg | rdcmd | rdplen | rdnrec | rdpay | rdrec => exact (exec_readAnswer rfl h).raisesOrSetsNone
  | txclr | txcmd | txpush | txgo => exact (exec_serAnswer h (by simp)).raisesOrSetsNone
  | rxarm | rxend | recsel => exact (exec_desAnswer h (by simp)).raisesOrSetsNone
  | wrreg a d => exact Host.Outcome.next.inj h ▸ s.writeReg_raisesOrSetsNone a d
  | srst => exact Host.Outcome.next.inj h ▸ .inr (.softReset s)
  | emit | rxbyte | reset | cmdFrame | rspFrame | discRecord => cases hi

end Sys2Proof.Machine

namespace Sys2Proof.Proofs
open Sys2Proof.Machine

/-- Settles O4: `Inv.exec` completes every instruction, and shows besides that the invariants are kept. -/
theorem everyStepCompletes : Obligations.EveryStepCompletes := fun _ i hs hi =>
  let ⟨t, ht, _⟩ := hs.exec i hi
  ⟨t, ht⟩

/-- Settles O58: of each error, the bit that goes from 0 to 1 names the raise. -/
theorem errorsArePrecise : Obligations.ErrorsArePrecise := by
  intro s t i hi h
  have hr : s.RaisesOrSetsNone t := exec_raisesOrSetsNone hi h
  exact ⟨fun ⟨hs, ht⟩ => hr.eq_raise (k := .txOverflow) hs ht, fun ⟨hs, ht⟩ => hr.eq_raise (k := .seqError) hs ht,
    fun ⟨hs, ht⟩ => hr.eq_raise (k := .idxError) hs ht, fun ⟨hs, ht⟩ => hr.eq_raise (k := .illegalOp) hs ht⟩

end Sys2Proof.Proofs
end

section
/-! PROOFS. Reset and hazards (70_reset_and_hazards.md): the reset state, SRST and the reset event, and an over-long
load until TXCLR. -/

namespace Sys2Proof.Machine

/-! ### An over-long load (R274) -/

/-- R137: after an over-long load TXGO is refused in both states of SER. -/
theorem State.txGo_of_txOvf {s : State} (ho : s.ser.txOvf = true) : s.txGo = s.raise .seqError := by
  rcases s.txGo_cases with e | ⟨-, hno, -⟩
  · exact e
  · simp [ho] at hno

/-- R24: of the load ops and EMIT only TXCLR clears `tx_ovf`. -/
theorem SerAnswer.txOvf_kept {s t : State} {i : Instr} (h : SerAnswer s i t) (hclr : i ≠ .txclr)
    (ho : s.ser.txOvf = true) : t.ser.txOvf = true := by
  cases h with
  | cleared => exact absurd rfl hclr
  | overflow => rfl
  | sent =>
    obtain ⟨-, -, hovf, -⟩ := s.ser.advance_loaded
    exact hovf.trans ho
  | refused | command | pushed | started => exact ho

/-- R24, R274: only TXCLR, alone or inside CMD_FRAME, SRST and reset can clear `tx_ovf`: every other instruction is
a step of SER that keeps it or leaves SER alone. -/
theorem exec_txOvf_kept {s t : State} {i : Instr} (h : exec i s = .next t) (hclr : i ≠ .txclr)
    (hsrst : i ≠ .srst) (hreset : i ≠ .reset) (hframe : ∀ c p, i ≠ .cmdFrame c p)
    (ho : s.ser.txOvf = true) : t.ser.txOvf = true := by
  have spared (hi : sparesSer i = true) : t.ser.txOvf = true := by
    rw [(exec_sparesSer hi h).1]
    exact ho
  cases i with
  | txclr => exact absurd rfl hclr
  | srst => exact absurd rfl hsrst
  | reset => exact absurd rfl hreset
  | cmdFrame c p => exact absurd rfl (hframe c p)
  | txcmd | txpush | txgo | emit => exact (exec_serAnswer h (by simp)).txOvf_kept hclr ho
  | nop | rxarm | rxend | rdcmd | rdplen | rdpay | recsel | rdrec | rdnrec | wrreg | rdreg | rxbyte | rspFrame
  | discRecord => exact spared rfl

end Sys2Proof.Machine

namespace Sys2Proof.Proofs
open Sys2Proof.Machine

/-- Settles O28: TXGO by its guard, and every other instruction as a step of SER or as one that leaves SER alone. -/
theorem overflowPoisonsUntilTxclr : Obligations.OverflowPoisonsUntilTxclr := fun _ ho =>
  ⟨congrArg Host.Outcome.next (State.txGo_of_txOvf ho),
    fun _ _ hclr hsrst hreset hframe h => exec_txOvf_kept h hclr hsrst hreset hframe ho⟩

/-- Settles O2, unit by unit. -/
theorem resetMeetsInvariants : Obligations.ResetMeetsInvariants := ⟨SerInv.reset _, DesInv.reset _⟩

/-- Settles O18: the registers `State.resetRegisters` writes, named one by one; reset has no case. -/
theorem resetEventEffect : Obligations.ResetEventEffect := fun _ => rfl

/-- Settles O19: both run `State.resetRegisters`, and SRST returns 0x00 besides. -/
theorem srstIsResetReturningZero : Obligations.SrstIsResetReturningZero := fun s =>
  ⟨decode_encode Config.device (i := .srst) rfl, s.resetRegisters, rfl, rfl⟩

/-- Settles O20: after either SER is idle, where no EMIT is enabled. -/
theorem resetAbandonsFrame : Obligations.ResetAbandonsFrame := by
  intro s t i hi h
  obtain ⟨e, -⟩ := exec_resets hi h
  have hidle : t.ser.txState = .idle := by rw [e]; rfl
  exact ⟨by rw [e]; rfl, hidle, by rw [e]; rfl, exec_emit_idle hidle⟩

end Sys2Proof.Proofs
end
